-- ==== Sys2Proof/Word.lean ====
section
/-! DEFINITION. The word types of ByteCodec: an 8-bit buffer element and a 32-bit result (00_scope R7). -/

namespace Sys2Proof

/-- One element of the byte buffer: 8 bits, read as the unsigned value 0..255 (00_scope R7, R11). -/
abbrev Byte := BitVec 8

/-- A decoded value and the accumulator of the decode loops: 32 bits, unsigned (00_scope R7, 40_decode R60). -/
abbrev Word := BitVec 32

end Sys2Proof
end

