-- ==== Sys2Proof/Config.lean ====
section
/-! DEFINITION. What an instance of ByteCodec fixes: the default of the parameter ADDR_W, and what a buffer
address that no cell lists holds. The spec leaves no result open, so there is no free value here. -/

namespace Sys2Proof.Config

/-- The default of the parameter `ADDR_W` (00_scope R7, 92_eei_decisions D5): the packed request word then has
32 bits (30_encoding R48). `State.addrW` holds the value of one instance; this is its value at `State.reset`. -/
def defaultAddrW : Nat := 28

/-- What a buffer address that no cell lists holds. DESIGN CHOICE (log entry 4, unsafe for the buffer at
`State.reset` only): the spec gives the buffer no contents before the environment fills it. -/
def unlistedByte : Byte := 0x00#8

end Sys2Proof.Config
end

