-- ==== Sys2Proof/Syntax.lean ====
section
/-! DEFINITION. The requests of ByteCodec (30_encoding R50: one constructor per row of opcode_table.json), the
pseudo-instructions and assembler lines (R56, R57), and what the consumer and the environment drive in one clock
cycle (R46, 70_reset_and_hazards R93, R98). -/

namespace Sys2Proof

/-- The byte order of a request (30_encoding R51). -/
inductive Endian where
  | little
  | big
  deriving DecidableEq, Repr

/-- A presented request (30_encoding R50). `offset` is the byte address of the first byte of the window (R52), a
natural number below `2^ADDR_W` when the request is well formed. The four illegal lengths keep both fields, which
have no effect on them (60_exceptions R78, R81). -/
inductive Instr where
  /-- `DEC.LE.1` (40_decode R65). -/
  | decLe1 (offset : Nat)
  /-- `DEC.LE.2` (40_decode R66). -/
  | decLe2 (offset : Nat)
  /-- `DEC.LE.3` (40_decode R67). -/
  | decLe3 (offset : Nat)
  /-- `DEC.LE.4` (40_decode R68). -/
  | decLe4 (offset : Nat)
  /-- `DEC.BE.1` (40_decode R69). -/
  | decBe1 (offset : Nat)
  /-- `DEC.BE.2` (40_decode R70). -/
  | decBe2 (offset : Nat)
  /-- `DEC.BE.3` (40_decode R71). -/
  | decBe3 (offset : Nat)
  /-- `DEC.BE.4` (40_decode R72). -/
  | decBe4 (offset : Nat)
  /-- Illegal length 0 (60_exceptions R78). -/
  | decX0 (endian : Endian) (offset : Nat)
  /-- Illegal length 5 (60_exceptions R78). -/
  | decX5 (endian : Endian) (offset : Nat)
  /-- Illegal length 6 (60_exceptions R78). -/
  | decX6 (endian : Endian) (offset : Nat)
  /-- Illegal length 7 (60_exceptions R78). -/
  | decX7 (endian : Endian) (offset : Nat)
  deriving DecidableEq, Repr

/-- The operand `offset` of a request (30_encoding R52). -/
def Instr.offset : Instr → Nat
  | .decLe1 o | .decLe2 o | .decLe3 o | .decLe4 o => o
  | .decBe1 o | .decBe2 o | .decBe3 o | .decBe4 o => o
  | .decX0 _ o | .decX5 _ o | .decX6 _ o | .decX7 _ o => o

/-- The byte order of a request (30_encoding R50, R51). -/
def Instr.endian : Instr → Endian
  | .decLe1 _ | .decLe2 _ | .decLe3 _ | .decLe4 _ => .little
  | .decBe1 _ | .decBe2 _ | .decBe3 _ | .decBe4 _ => .big
  | .decX0 e _ | .decX5 e _ | .decX6 e _ | .decX7 e _ => e

/-- The length of a request in bytes (30_encoding R49, R50). -/
def Instr.len : Instr → Nat
  | .decLe1 _ | .decBe1 _ => 1
  | .decLe2 _ | .decBe2 _ => 2
  | .decLe3 _ | .decBe3 _ => 3
  | .decLe4 _ | .decBe4 _ => 4
  | .decX0 _ _ => 0
  | .decX5 _ _ => 5
  | .decX6 _ _ => 6
  | .decX7 _ _ => 7

/-- The pseudo-instructions, each a name for one request (30_encoding R57). -/
inductive Pseudo where
  | u8
  | u16le
  | u32le
  | u16be
  | u32be
  | tag2
  | tag4
  deriving DecidableEq, Repr

/-- One line of a listing (30_encoding R56): a request by order, length and offset, a pseudo-instruction, or `IDLE`. -/
inductive Line where
  | dec (order : Endian) (len : BitVec 3) (offset : Nat)
  | pseudo (name : Pseudo) (offset : Nat)
  | idle
  deriving DecidableEq, Repr

/-- The request ports other than `req_valid` (30_encoding R46): `req_len[2:0]`, `req_endian`,
`req_offset[ADDR_W-1:0]`. -/
structure Ports where
  len : BitVec 3
  endian : BitVec 1
  offset : Nat
  deriving DecidableEq, Repr

/-- What the environment changes in a cycle in which no request is presented (70_reset_and_hazards R96, R98): the
bytes it writes into `BUF`, in order, and a new value of `BOUND` if it drives one. -/
structure Change where
  fill : List Host.Cell
  bound : Option Nat
  deriving DecidableEq, Repr

/-- What is driven in one clock cycle and sampled at the edge that ends it. A cycle that presents a request
(`req_valid = 1`) has no change of `BUF` or `BOUND`: the host has no such move (20_memory R41,
70_reset_and_hazards R98, 93_implementation_defined I5; log entry 8). -/
inductive ClockCycle where
  /-- `req_valid = 1`. -/
  | request (rst : Bool) (ports : Ports)
  /-- `req_valid = 0`; the request ports carry some value, which is ignored (30_encoding R54). -/
  | quiet (rst : Bool) (ports : Ports) (change : Change)
  deriving DecidableEq, Repr

/-- The level of `rst` in a cycle (70_reset_and_hazards R93). -/
def ClockCycle.rst : ClockCycle → Bool
  | .request r _ => r
  | .quiet r _ _ => r

/-- The level of `req_valid` in a cycle (30_encoding R46). -/
def ClockCycle.reqValid : ClockCycle → Bool
  | .request _ _ => true
  | .quiet _ _ _ => false

/-- A request is accepted at an edge with `rst = 0` and `req_valid = 1` (70_reset_and_hazards R94, R101). -/
def ClockCycle.accepted (c : ClockCycle) : Bool := c.reqValid && !c.rst

end Sys2Proof
end

