-- ==== Sys2Proof/WellFormed.lean ====
section
/-! DEFINITION. Which requests and inputs exist at a given ADDR_W: an offset has ADDR_W bits, a bound ADDR_W + 1
bits, and a byte of the buffer an address below 2^ADDR_W (00_scope R7, 20_memory R30, 30_encoding R46). -/

namespace Sys2Proof

/-- The offset fits its field `req[ADDR_W+3:4]` (30_encoding R47, R52). -/
def Instr.wf (addrW : Nat) (i : Instr) : Bool := decide (i.offset < 2 ^ addrW)

/-- The offset fits the port `req_offset[ADDR_W-1:0]` (30_encoding R46). -/
def Ports.wf (addrW : Nat) (p : Ports) : Bool := decide (p.offset < 2 ^ addrW)

/-- A line's offset is an address below `2^ADDR_W` (30_encoding R56). -/
def Line.wf (addrW : Nat) : Line → Bool
  | .dec _ _ o => decide (o < 2 ^ addrW)
  | .pseudo _ o => decide (o < 2 ^ addrW)
  | .idle => true

/-- Every byte written lies in the address space (20_memory R30), and a bound fits `BOUND[ADDR_W:0]` (R31). -/
def Change.wf (addrW : Nat) (c : Change) : Bool :=
  c.fill.all (fun cell => decide (cell.1 < 2 ^ addrW)) &&
    match c.bound with
    | none => true
    | some b => decide (b < 2 ^ (addrW + 1))

/-- What the ports and the environment can drive in one cycle. -/
def ClockCycle.wf (addrW : Nat) : ClockCycle → Bool
  | .request _ p => p.wf addrW
  | .quiet _ p ch => p.wf addrW && ch.wf addrW

end Sys2Proof
end

