-- ==== Sys2Proof/Decode.lean ====
section
/-! DEFINITION. The packed request word and its two readings: decode, total on every word of ADDR_W + 4 bits
(30_encoding R55), and encode, written from the table of R50. Numbers that are no packed word are rejected by name. -/

namespace Sys2Proof

/-- Why a number decodes to no request. -/
inductive DecodeError where
  /-- The number has more than `ADDR_W + 4` bits, so it is no packed word (30_encoding R47). Safe. -/
  | notAPackedWord
  deriving DecidableEq, Repr

/-- The byte order a bit selects (30_encoding R51). -/
def Endian.ofBit (b : BitVec 1) : Endian := if b = 0#1 then .little else .big

/-- The bit that selects a byte order (30_encoding R51). -/
def Endian.bit : Endian → BitVec 1
  | .little => 0#1
  | .big => 1#1

/-- The request that a byte order, a length and an offset name: the table of 30_encoding R50. -/
def Instr.ofFields (e : Endian) (len : BitVec 3) (offset : Nat) : Instr :=
  match e, len.toFin with
  | e, 0 => .decX0 e offset
  | .little, 1 => .decLe1 offset
  | .little, 2 => .decLe2 offset
  | .little, 3 => .decLe3 offset
  | .little, 4 => .decLe4 offset
  | .big, 1 => .decBe1 offset
  | .big, 2 => .decBe2 offset
  | .big, 3 => .decBe3 offset
  | .big, 4 => .decBe4 offset
  | e, 5 => .decX5 e offset
  | e, 6 => .decX6 e offset
  | e, 7 => .decX7 e offset

/-- Field `len`, `req[2:0]` (30_encoding R47). -/
def lenField {addrW : Nat} (w : BitVec (addrW + 4)) : BitVec 3 := w.extractLsb' 0 3

/-- Field `endian`, `req[3]` (30_encoding R47). -/
def endianField {addrW : Nat} (w : BitVec (addrW + 4)) : BitVec 1 := w.extractLsb' 3 1

/-- Field `offset`, `req[ADDR_W+3:4]` (30_encoding R47), zero-extended (R52). -/
def offsetField {addrW : Nat} (w : BitVec (addrW + 4)) : Nat := (w.extractLsb' 4 addrW).toNat

/-- The request a packed word stands for (30_encoding R50, R55): total, and it looks at `req[3:0]` only to choose
the operation. -/
def decode {addrW : Nat} (w : BitVec (addrW + 4)) : Instr :=
  Instr.ofFields (Endian.ofBit (endianField w)) (lenField w) (offsetField w)

/-- The request a number stands for as a packed word at `ADDR_W`; a number of more bits is rejected by name. -/
def decodeNat (addrW w : Nat) : Except DecodeError Instr :=
  if w < 2 ^ (addrW + 4) then .ok (decode (BitVec.ofNat (addrW + 4) w)) else .error .notAPackedWord

/-- The command nibble `{endian, len}` of a request, value by value from the table of 30_encoding R50. -/
def Instr.nibble : Instr → BitVec 4
  | .decX0 .little _ => 0b0000#4
  | .decLe1 _ => 0b0001#4
  | .decLe2 _ => 0b0010#4
  | .decLe3 _ => 0b0011#4
  | .decLe4 _ => 0b0100#4
  | .decX5 .little _ => 0b0101#4
  | .decX6 .little _ => 0b0110#4
  | .decX7 .little _ => 0b0111#4
  | .decX0 .big _ => 0b1000#4
  | .decBe1 _ => 0b1001#4
  | .decBe2 _ => 0b1010#4
  | .decBe3 _ => 0b1011#4
  | .decBe4 _ => 0b1100#4
  | .decX5 .big _ => 0b1101#4
  | .decX6 .big _ => 0b1110#4
  | .decX7 .big _ => 0b1111#4

/-- The packed word of a request (30_encoding R47): the offset above the command nibble. -/
def encode (addrW : Nat) (i : Instr) : BitVec (addrW + 4) := BitVec.ofNat addrW i.offset ++ i.nibble

/-- The packed word the request ports carry (30_encoding R46, R47): `{req_offset, req_endian, req_len}`. -/
def Ports.pack (addrW : Nat) (p : Ports) : BitVec (addrW + 4) :=
  BitVec.ofNat addrW p.offset ++ (p.endian ++ p.len : BitVec (1 + 3))

/-- The port levels that carry a packed word (30_encoding R46, R47). -/
def Ports.ofWord {addrW : Nat} (w : BitVec (addrW + 4)) : Ports :=
  { len := lenField w, endian := endianField w, offset := offsetField w }

/-- The instruction a word of opcode_table.json stands for. The table is written at the default `ADDR_W`, where a
packed word has 32 bits (30_encoding R48); the bits from `nbits` up are 0 (log entry 13). -/
def decodeTableWord (nbits w : Nat) : Option Instr :=
  match decodeNat Config.defaultAddrW (w % 2 ^ nbits) with
  | .ok i => some i
  | .error _ => none

/-- A row of opcode_table.json: its mnemonic and the bits of the 32-bit packed word it fixes. -/
structure OpcodeRow where
  mnemonic : String
  mask : BitVec 32
  bits : BitVec 32
  deriving DecidableEq, Repr

/-- The row says that a packed word is its instruction. -/
def OpcodeRow.covers (r : OpcodeRow) (w : BitVec 32) : Bool := w &&& r.mask == r.bits

/-- opcode_table.json, row by row (30_encoding, opening text: only `req[3:0]` is matched). -/
def opcodeTable : List OpcodeRow :=
  [ ⟨"DEC.LE.1", 0x0000000F#32, 0x00000001#32⟩,
    ⟨"DEC.LE.2", 0x0000000F#32, 0x00000002#32⟩,
    ⟨"DEC.LE.3", 0x0000000F#32, 0x00000003#32⟩,
    ⟨"DEC.LE.4", 0x0000000F#32, 0x00000004#32⟩,
    ⟨"DEC.BE.1", 0x0000000F#32, 0x00000009#32⟩,
    ⟨"DEC.BE.2", 0x0000000F#32, 0x0000000A#32⟩,
    ⟨"DEC.BE.3", 0x0000000F#32, 0x0000000B#32⟩,
    ⟨"DEC.BE.4", 0x0000000F#32, 0x0000000C#32⟩,
    ⟨"DEC.x.0__illegal_length__ELEN", 0x00000007#32, 0x00000000#32⟩,
    ⟨"DEC.x.5__illegal_length__ELEN", 0x00000007#32, 0x00000005#32⟩,
    ⟨"DEC.x.6__illegal_length__ELEN", 0x00000007#32, 0x00000006#32⟩,
    ⟨"DEC.x.7__illegal_length__ELEN", 0x00000007#32, 0x00000007#32⟩ ]

/-- The mnemonic of a request as opcode_table.json spells it (00_scope R12). -/
def Instr.mnemonic : Instr → String
  | .decLe1 _ => "DEC.LE.1"
  | .decLe2 _ => "DEC.LE.2"
  | .decLe3 _ => "DEC.LE.3"
  | .decLe4 _ => "DEC.LE.4"
  | .decBe1 _ => "DEC.BE.1"
  | .decBe2 _ => "DEC.BE.2"
  | .decBe3 _ => "DEC.BE.3"
  | .decBe4 _ => "DEC.BE.4"
  | .decX0 _ _ => "DEC.x.0__illegal_length__ELEN"
  | .decX5 _ _ => "DEC.x.5__illegal_length__ELEN"
  | .decX6 _ _ => "DEC.x.6__illegal_length__ELEN"
  | .decX7 _ _ => "DEC.x.7__illegal_length__ELEN"

end Sys2Proof
end

