-- ==== Sys2Proof/Machine/State.lean ====
section
/-! DEFINITION. What one ByteCodec holds: its four pieces of architectural state (10_state R17), and, because a step
is a function of the state alone, the inputs and the parameter the spec makes arguments of the step (R22, R23). -/

namespace Sys2Proof.Machine

/-- The byte buffer `BUF` (20_memory R30): cells at strictly rising addresses, none holding what an unlisted address
reads as. A natural number is an address; the space ends at `2^ADDR_W`, which `ClockCycle.wf` keeps. -/
abbrev Memory := List Host.Cell

/-- The canonical form of a buffer, so that equal buffers are equal lists. -/
abbrev Memory.wf (m : Memory) : Prop :=
  m.Pairwise (fun c d => c.1 < d.1) ∧ ∀ c ∈ m, c.2 ≠ Config.unlistedByte

/-- Why a step stops. -/
inductive Fault where
  /-- Raised by `step` when the next cycle drives what no port carries: an offset of more than `ADDR_W` bits, a bound
  of more than `ADDR_W + 1` bits, or a byte outside the address space (30_encoding R46, 00_scope R7, 20_memory R30).
  No request raises it. Safe: the hardware has no such input (log entry 7). -/
  | undrivableInput
  deriving DecidableEq, Repr

/-- Why an instruction has no meaning. -/
inductive Refusal where
  /-- Raised by an arm of `exec` for an instruction without a meaning yet; every arm has its meaning, so nothing
  raises it. Safe. -/
  | notModelled (mnemonic : String)
  deriving DecidableEq, Repr

/-- One ByteCodec and what is driven into it. -/
structure State where
  /-- `RESP.VALID` (10_state R18). -/
  respValid : Bool
  /-- `RESP.DATA` (10_state R19). -/
  respData : Word
  /-- `RESP.STATUS` (10_state R20). -/
  respStatus : BitVec 2
  /-- `STICKY_ERR` (10_state R21). -/
  stickyErr : Bool
  /-- The parameter `ADDR_W` (00_scope R7); no step changes it (log entry 3). -/
  addrW : Nat
  /-- The buffer `BUF` (20_memory R30), an input (10_state R23). -/
  buf : Memory
  /-- The bound `BOUND` (20_memory R31), an input (10_state R23). -/
  bound : Nat
  /-- The cycles the consumer and the environment will drive, the next one first (log entry 1). -/
  inputs : List ClockCycle
  /-- The set of buffer addresses read at the last edge, in rising order: what 00_scope R14 lets a model observe
  beside the block's state. The model's own field; no step reads it (log entry 6). -/
  reads : List Nat
  deriving DecidableEq, Repr

/-- The block right after reset (10_state R27, 70_reset_and_hazards R93), with nothing driven yet: the parameter at
its default, and, as DESIGN CHOICES of log entries 4 and 5, an empty buffer and a bound of 0. -/
def State.reset : State where
  respValid := false
  respData := 0x00000000#32
  respStatus := 0b00#2
  stickyErr := false
  addrW := Config.defaultAddrW
  buf := []
  bound := 0
  inputs := []
  reads := []

end Sys2Proof.Machine
end

