-- ==== Sys2Proof/Machine/Flags.lean ====
section
/-! DEFINITION. The status codes of RESP.STATUS (10_state R20, 60_exceptions R77), the one flag STICKY_ERR (R21, R82),
and the output ports (R29). -/

namespace Sys2Proof.Machine

/-- The two errors (60_exceptions R77). -/
inductive ErrorCause where
  /-- Illegal length (R78). -/
  | elen
  /-- Window past the bound (R79). -/
  | ebound
  deriving DecidableEq, Repr

/-- `OK` (10_state R20). -/
def statusOk : BitVec 2 := 0b00#2

/-- The reserved code, which nothing writes (10_state R20, 60_exceptions R86). -/
def statusReserved : BitVec 2 := 0b11#2

/-- The code an error writes into `RESP.STATUS` (10_state R20, 60_exceptions R77). -/
def ErrorCause.code : ErrorCause → BitVec 2
  | .elen => 0b01#2
  | .ebound => 0b10#2

/-- What a status code says: no error, an error, or nothing for the reserved code (93_implementation_defined I3). -/
def readStatus (code : BitVec 2) : Option (Option ErrorCause) :=
  if code = statusOk then some none
  else if code = ErrorCause.elen.code then some (some .elen)
  else if code = ErrorCause.ebound.code then some (some .ebound)
  else none

/-- `STICKY_ERR <- 1`, at the edge that writes an error (60_exceptions R82). -/
def State.setSticky (s : State) : State := { s with stickyErr := true }

/-- `STICKY_ERR <- 0`, which only reset does (10_state R21, 70_reset_and_hazards R93). -/
def State.clearSticky (s : State) : State := { s with stickyErr := false }

/-- The output ports (10_state R29). -/
structure Outputs where
  respValid : Bool
  respData : BitVec 32
  respStatus : BitVec 2
  errSticky : Bool
  deriving DecidableEq, Repr

/-- The output ports are driven by the block's state and by no input (10_state R29, 70_reset_and_hazards R104). -/
def State.outputs (s : State) : Outputs :=
  { respValid := s.respValid, respData := s.respData, respStatus := s.respStatus, errSticky := s.stickyErr }

end Sys2Proof.Machine
end

