-- ==== Sys2Proof/Machine/Ops.lean ====
section
/-! DEFINITION. The named operations on the buffer and on the response register: reading and filling BUF, answering a
request, raising an error (the one shared operation of 00_scope R9; errors have no return, 60_exceptions R85), the
idle edge, the reset edge, and a change of BUF and BOUND by the environment. -/

namespace Sys2Proof.Machine

/-- `BUF[a]` (20_memory R30); an address no cell lists holds `Config.unlistedByte`. -/
def Memory.read : Memory → Nat → Byte
  | [], _ => Config.unlistedByte
  | c :: m, a => if c.1 = a then c.2 else Memory.read m a

/-- The buffer with byte `v` at address `a`, in canonical form. Only the environment writes (20_memory R38). -/
def Memory.write : Memory → Nat → Byte → Memory
  | [], a, v => if v = Config.unlistedByte then [] else [(a, v)]
  | c :: m, a, v =>
    if a < c.1 then (if v = Config.unlistedByte then c :: m else (a, v) :: c :: m)
    else if a = c.1 then (if v = Config.unlistedByte then m else (a, v) :: m)
    else c :: Memory.write m a v

/-- The buffer after the environment has written `cells`, first to last (70_reset_and_hazards R96, R98). -/
def Memory.fill (m : Memory) (cells : List Host.Cell) : Memory :=
  cells.foldl (fun m c => m.write c.1 c.2) m

/-- A set of addresses, kept in rising order without repeats, with `a` added. -/
def insertAddr (a : Nat) : List Nat → List Nat
  | [] => [a]
  | b :: l => if a < b then a :: b :: l else if a = b then b :: l else b :: insertAddr a l

/-- `MemRead(a, 1)` (00_scope R9, 20_memory R30): the byte, and the observation that `a` was read (00_scope R14).
Nothing else changes (20_memory R37, R38). -/
def State.memRead (s : State) (a : Nat) : Byte × State :=
  (s.buf.read a, { s with reads := insertAddr a s.reads })

/-- No address has been read yet at this edge. -/
def State.beginEdge (s : State) : State := { s with reads := [] }

/-- `resp <- (1, data, status)` (00_scope R9, 10_state R18 to R20). -/
def State.respond (s : State) (status : BitVec 2) (data : Word) : State :=
  { s with respValid := true, respData := data, respStatus := status }

/-- `raise E(info)` (00_scope R9, 40_decode R59, 60_exceptions R82, R84): the error is the response, and the sticky
flag is set. Nothing is saved or redirected (R80). -/
def State.raise (s : State) (e : ErrorCause) (info : Word) : State := (s.respond e.code info).setSticky

/-- `IDLE`: an edge outside reset with `req_valid = 0` (40_decode R73, 10_state R28). -/
def State.idleEdge (s : State) : State := { s.beginEdge with respValid := false }

/-- An edge with `rst = 1` (70_reset_and_hazards R93, 10_state R27); what is presented is dropped (R94). -/
def State.resetEdge (s : State) : State :=
  { s.beginEdge.clearSticky with respValid := false, respData := 0x00000000#32, respStatus := statusOk }

/-- What the environment does to `BUF` and `BOUND` in a cycle without a request (70_reset_and_hazards R98). -/
def State.applyChange (s : State) (c : Change) : State :=
  { s with buf := s.buf.fill c.fill, bound := c.bound.getD s.bound }

end Sys2Proof.Machine
end

