-- ==== Sys2Proof/Machine/Operands.lean ====
section
/-! DEFINITION. The operand of a request, the byte window [offset, offset + len): its bound check (20_memory R31,
40_decode R74) and its two readings (40_decode R60, R61), then the common step of R59. -/

namespace Sys2Proof.Machine

/-- The effective bound `EB = min(BOUND, 2^ADDR_W)`, exact (20_memory R31). -/
def State.effectiveBound (s : State) : Nat := min s.bound (2 ^ s.addrW)

/-- One step of the accumulation: `(acc << 8) | zext_32(b & 0xFF)` (40_decode R60 to R62). -/
def shiftIn (acc : Word) (b : Byte) : Word := (acc <<< 8) ||| (b &&& 0xFF#8).setWidth 32

/-- `acc = (acc << 8) | zext_32(MemRead(a, 1) & 0xFF)`. -/
def shiftInRead (p : Word × State) (a : Nat) : Word × State :=
  (shiftIn p.1 (p.2.memRead a).1, (p.2.memRead a).2)

/-- The accumulation over the bytes at `o + i`, for `i` in the order of `is`, from 0. -/
def State.accumulate (s : State) (o : Nat) (is : List Nat) : Word × State :=
  is.foldl (fun p i => shiftInRead p (o + i)) (0x00000000#32, s)

/-- `decodeLE(o, n)`: `for i = n-1 downto 0` (40_decode R60). -/
def State.decodeLE (s : State) (o n : Nat) : Word × State := s.accumulate o (List.range n).reverse

/-- `decodeBE(o, n)`: `for i = 0 to n-1` (40_decode R61). -/
def State.decodeBE (s : State) (o n : Nat) : Word × State := s.accumulate o (List.range n)

/-- The reading of a window in the order a request chooses (20_memory R32). -/
def State.decodeWindow (s : State) (e : Endian) (o n : Nat) : Word × State :=
  match e with
  | .little => s.decodeLE o n
  | .big => s.decodeBE o n

/-- The common step of 40_decode R59 at an edge that accepts a request: the length check, then the bound check
(60_exceptions R81), then the decode. -/
def State.acceptRequest (s : State) (e : Endian) (len : BitVec 3) (o : Nat) : State :=
  if len.toNat < 1 ∨ 4 < len.toNat then s.beginEdge.raise .elen 0x00000000#32
  else if s.effectiveBound < o + len.toNat then s.beginEdge.raise .ebound 0x00000000#32
  else (s.beginEdge.decodeWindow e o len.toNat).2.respond statusOk (s.beginEdge.decodeWindow e o len.toNat).1

end Sys2Proof.Machine
end

