-- ==== Sys2Proof/Machine/BigEndian.lean ====
section
/-! DEFINITION. The meanings of DEC.BE.1 to DEC.BE.4 (40_decode R69 to R72). -/

namespace Sys2Proof.Machine

/-- `DEC.BE.1 o` (40_decode R69). -/
def execDecBe1 (offset : Nat) (s : State) : Host.Outcome State Fault Refusal :=
  .next (s.acceptRequest .big 1#3 offset)

/-- `DEC.BE.2 o` (40_decode R70). -/
def execDecBe2 (offset : Nat) (s : State) : Host.Outcome State Fault Refusal :=
  .next (s.acceptRequest .big 2#3 offset)

/-- `DEC.BE.3 o` (40_decode R71). -/
def execDecBe3 (offset : Nat) (s : State) : Host.Outcome State Fault Refusal :=
  .next (s.acceptRequest .big 3#3 offset)

/-- `DEC.BE.4 o` (40_decode R72). -/
def execDecBe4 (offset : Nat) (s : State) : Host.Outcome State Fault Refusal :=
  .next (s.acceptRequest .big 4#3 offset)

end Sys2Proof.Machine
end

