-- ==== Sys2Proof/Machine/IllegalLength.lean ====
section
/-! DEFINITION. The meanings of the requests of illegal length 0, 5, 6 and 7: each completes with the answer ELEN, in
either byte order and at any offset (60_exceptions R78, R81; 30_encoding R53). -/

namespace Sys2Proof.Machine

/-- `DEC.LE.0 o` and `DEC.BE.0 o` (60_exceptions R78). -/
def execDecX0 (endian : Endian) (offset : Nat) (s : State) : Host.Outcome State Fault Refusal :=
  .next (s.acceptRequest endian 0#3 offset)

/-- `DEC.LE.5 o` and `DEC.BE.5 o` (60_exceptions R78). -/
def execDecX5 (endian : Endian) (offset : Nat) (s : State) : Host.Outcome State Fault Refusal :=
  .next (s.acceptRequest endian 5#3 offset)

/-- `DEC.LE.6 o` and `DEC.BE.6 o` (60_exceptions R78). -/
def execDecX6 (endian : Endian) (offset : Nat) (s : State) : Host.Outcome State Fault Refusal :=
  .next (s.acceptRequest endian 6#3 offset)

/-- `DEC.LE.7 o` and `DEC.BE.7 o` (60_exceptions R78). -/
def execDecX7 (endian : Endian) (offset : Nat) (s : State) : Host.Outcome State Fault Refusal :=
  .next (s.acceptRequest endian 7#3 offset)

end Sys2Proof.Machine
end

