-- ==== Sys2Proof/Machine/LittleEndian.lean ====
section
/-! DEFINITION. The meanings of DEC.LE.1 to DEC.LE.4 (40_decode R65 to R68). -/

namespace Sys2Proof.Machine

/-- `DEC.LE.1 o` (40_decode R65). -/
def execDecLe1 (offset : Nat) (s : State) : Host.Outcome State Fault Refusal :=
  .next (s.acceptRequest .little 1#3 offset)

/-- `DEC.LE.2 o` (40_decode R66). -/
def execDecLe2 (offset : Nat) (s : State) : Host.Outcome State Fault Refusal :=
  .next (s.acceptRequest .little 2#3 offset)

/-- `DEC.LE.3 o` (40_decode R67). -/
def execDecLe3 (offset : Nat) (s : State) : Host.Outcome State Fault Refusal :=
  .next (s.acceptRequest .little 3#3 offset)

/-- `DEC.LE.4 o` (40_decode R68). -/
def execDecLe4 (offset : Nat) (s : State) : Host.Outcome State Fault Refusal :=
  .next (s.acceptRequest .little 4#3 offset)

end Sys2Proof.Machine
end

