-- ==== Sys2Proof/Machine/Dispatch.lean ====
section
/-! DEFINITION. One arm per request, each a direct call of its meaning (40_decode R65 to R72, 60_exceptions R78). -/

namespace Sys2Proof.Machine

/-- What a request does at the edge that accepts it (40_decode R59). -/
def exec (i : Instr) (s : State) : Host.Outcome State Fault Refusal :=
  match i with
  | .decLe1 offset => Sys2Proof.Machine.execDecLe1 offset s
  | .decLe2 offset => Sys2Proof.Machine.execDecLe2 offset s
  | .decLe3 offset => Sys2Proof.Machine.execDecLe3 offset s
  | .decLe4 offset => Sys2Proof.Machine.execDecLe4 offset s
  | .decBe1 offset => Sys2Proof.Machine.execDecBe1 offset s
  | .decBe2 offset => Sys2Proof.Machine.execDecBe2 offset s
  | .decBe3 offset => Sys2Proof.Machine.execDecBe3 offset s
  | .decBe4 offset => Sys2Proof.Machine.execDecBe4 offset s
  | .decX0 endian offset => Sys2Proof.Machine.execDecX0 endian offset s
  | .decX5 endian offset => Sys2Proof.Machine.execDecX5 endian offset s
  | .decX6 endian offset => Sys2Proof.Machine.execDecX6 endian offset s
  | .decX7 endian offset => Sys2Proof.Machine.execDecX7 endian offset s

end Sys2Proof.Machine
end

