-- ==== Sys2Proof/Machine/Edge.lean ====
section
/-! DEFINITION. What happens at one rising clock edge, given what was driven in the cycle it ends (40_decode R59, R73;
70_reset_and_hazards R93, R94, R98, R100). -/

namespace Sys2Proof.Machine

/-- The request the ports present (30_encoding R47, R50). -/
def State.sampled (s : State) (p : Ports) : Instr := decode (p.pack s.addrW)

/-- One edge. Reset wins over a presented request, which is dropped (70_reset_and_hazards R94); a change of the
buffer or the bound belongs to a cycle that presents nothing (R98) and is in place before any later request. -/
def State.clockEdge (s : State) (c : ClockCycle) : Host.Outcome State Fault Refusal :=
  match c with
  | .request true _ => .next s.resetEdge
  | .request false p => exec (s.sampled p) s
  | .quiet true _ ch => .next (s.applyChange ch).resetEdge
  | .quiet false _ ch => .next (s.applyChange ch).idleEdge

/-- One edge with the next cycle of `inputs`. A cycle the ports cannot carry stops the model (log entry 7); when no
cycle is listed, nothing is presented, and the edge is idle (log entry 2). -/
def State.nextEdge (s : State) : Host.Outcome State Fault Refusal :=
  match s.inputs with
  | [] => .next s.idleEdge
  | c :: rest =>
    if c.wf s.addrW then State.clockEdge { s with inputs := rest } c else .fault .undrivableInput

/-- The state in which the next cycle presents the packed word `w` outside reset; the listed cycles follow it. -/
def State.present (s : State) (w : BitVec (s.addrW + 4)) : State :=
  { s with inputs := .request false (Ports.ofWord w) :: s.inputs }

end Sys2Proof.Machine
end

