-- ==== Sys2Proof/Machine/Step.lean ====
section
/-! DEFINITION. One step of the machine: one rising edge of the clock (70_reset_and_hazards R100, R103). -/

namespace Sys2Proof.Machine

/-- One rising clock edge. -/
def step (s : State) : Host.Outcome State Fault Refusal := s.nextEdge

/-- The state whose next step accepts the request of a word of opcode_table.json: the consumer presents it in the
next cycle, outside reset (log entries 9 and 13). -/
def State.withFetchWord (s : State) (nbits w : Nat) : State :=
  s.present (BitVec.ofNat (s.addrW + 4) (w % 2 ^ nbits))

end Sys2Proof.Machine
end

