-- ==== Sys2Proof/Machine/Assembler.lean ====
section
/-! DEFINITION. The assembler of 30_encoding: pseudo-instructions (R57), the word a line assembles to (R56), and the
reading of a line's text. -/

namespace Sys2Proof

/-- The request a pseudo-instruction names (30_encoding R57). -/
def Pseudo.expand (p : Pseudo) (o : Nat) : Instr :=
  match p with
  | .u8 => .decLe1 o
  | .u16le => .decLe2 o
  | .u32le => .decLe4 o
  | .u16be => .decBe2 o
  | .u32be => .decBe4 o
  | .tag2 => .decBe2 o
  | .tag4 => .decBe4 o

/-- The request of a line, if it presents one (30_encoding R56). -/
def Line.instr : Line → Option Instr
  | .dec e n o => some (Instr.ofFields e n o)
  | .pseudo p o => some (p.expand o)
  | .idle => none

/-- The packed word a line assembles to; `IDLE` has none (30_encoding R56). -/
def Line.word (addrW : Nat) (l : Line) : Option (BitVec (addrW + 4)) := l.instr.map (encode addrW)

/-- What a line drives in its cycle, outside reset (30_encoding R56): its request, or `req_valid = 0`. -/
def Line.cycle (addrW : Nat) (l : Line) : ClockCycle :=
  match l.word addrW with
  | some w => .request false (Ports.ofWord w)
  | none => .quiet false ⟨0#3, 0#1, 0⟩ ⟨[], none⟩

/-- Why a line's text is refused by name. -/
inductive AsmError where
  /-- The first word is no mnemonic of 30_encoding R56 or R57. Safe. -/
  | unknownMnemonic
  /-- The offset is neither decimal nor `0x` hexadecimal. Safe. -/
  | badOffset
  /-- The offset is not below `2^ADDR_W`. Safe. -/
  | offsetTooWide
  /-- A missing or an extra word. Safe. -/
  | malformedLine
  deriving DecidableEq, Repr

/-- The words of a text, split at blanks; `cur` is the word being read, last character first. -/
def splitBlanks (cur : List Char) : List Char → List (List Char)
  | [] => if cur = [] then [] else [cur.reverse]
  | c :: cs =>
    if c = ' ' ∨ c = '\t' then (if cur = [] then splitBlanks [] cs else cur.reverse :: splitBlanks [] cs)
    else splitBlanks (c :: cur) cs

/-- The value of a decimal or hexadecimal digit. -/
def digitValue (c : Char) : Option Nat :=
  if '0' ≤ c ∧ c ≤ '9' then some (c.toNat - 48)
  else if 'A' ≤ c ∧ c ≤ 'F' then some (c.toNat - 55)
  else if 'a' ≤ c ∧ c ≤ 'f' then some (c.toNat - 87)
  else none

/-- A numeral of at least one digit in a base, most significant digit first. -/
def readNumeral (base : Nat) (ds : List Char) : Option Nat :=
  if ds = [] then none
  else ds.foldl (fun acc c => acc.bind fun n => (digitValue c).bind fun d => if d < base then some (n * base + d) else none)
    (some 0)

/-- A decimal or `0x` hexadecimal number (30_encoding R56). -/
def readNumber : List Char → Option Nat
  | '0' :: 'x' :: ds => readNumeral 16 ds
  | ds => readNumeral 10 ds

/-- The requests and pseudo-instructions by the text of their mnemonic (30_encoding R56, R57). -/
def mnemonicTable : List (String × (Nat → Line)) :=
  [ ("DEC.LE.0", .dec .little 0#3), ("DEC.LE.1", .dec .little 1#3), ("DEC.LE.2", .dec .little 2#3),
    ("DEC.LE.3", .dec .little 3#3), ("DEC.LE.4", .dec .little 4#3), ("DEC.LE.5", .dec .little 5#3),
    ("DEC.LE.6", .dec .little 6#3), ("DEC.LE.7", .dec .little 7#3),
    ("DEC.BE.0", .dec .big 0#3), ("DEC.BE.1", .dec .big 1#3), ("DEC.BE.2", .dec .big 2#3),
    ("DEC.BE.3", .dec .big 3#3), ("DEC.BE.4", .dec .big 4#3), ("DEC.BE.5", .dec .big 5#3),
    ("DEC.BE.6", .dec .big 6#3), ("DEC.BE.7", .dec .big 7#3),
    ("U8", .pseudo .u8), ("U16LE", .pseudo .u16le), ("U32LE", .pseudo .u32le), ("U16BE", .pseudo .u16be),
    ("U32BE", .pseudo .u32be), ("TAG2", .pseudo .tag2), ("TAG4", .pseudo .tag4) ]

/-- The line a mnemonic with an offset stands for. -/
def lookupMnemonic (name : List Char) : Option (Nat → Line) :=
  (mnemonicTable.find? fun r => r.1.toList == name).map (·.2)

/-- The line a text stands for (30_encoding R56): nothing for a text of blanks and a comment (log entry 12). -/
def parseLine (addrW : Nat) (text : List Char) : Except AsmError (Option Line) :=
  match splitBlanks [] (text.takeWhile (fun c => c ≠ ';')) with
  | [] => .ok none
  | [name] => if name = "IDLE".toList then .ok (some .idle) else .error .malformedLine
  | [name, number] =>
    match lookupMnemonic name, readNumber number with
    | none, _ => .error .unknownMnemonic
    | some _, none => .error .badOffset
    | some line, some o => if o < 2 ^ addrW then .ok (some (line o)) else .error .offsetTooWide
  | _ => .error .malformedLine

end Sys2Proof
end

