-- ==== Sys2Proof/Machine/Document.lean ====
section
/-! DEFINITION. The document's pure function decode(bytes, offset, length, endianness), which the block is made from
(00_scope R1, R5, R10, R11; 30_encoding R58), its two error kinds (92_eei_decisions D30), and how a consumer reads the
block's answer. The step of the machine does not use this file; statements compare the two. -/

namespace Sys2Proof.Document

open Sys2Proof.Machine

/-- The two error kinds of the document that decode can end with (00_scope, glossary). -/
inductive DocError where
  /-- `TruncatedInputError`: a read past the available bytes. -/
  | truncatedInput
  /-- `InvalidArgumentError`: a precondition violated. -/
  | invalidArgument
  deriving DecidableEq, Repr

/-- The document's error kind an error of the block corresponds to (60_exceptions R78, R79; 92_eei_decisions D30). -/
def errorKind : ErrorCause → DocError
  | .elen => .invalidArgument
  | .ebound => .truncatedInput

/-- The byte the block sees where the host stores the signed value `s` (00_scope R11): `s`, or `s + 256` when
negative. -/
def rebias (s : Int) : Byte := if 0 ≤ s then BitVec.ofNat 8 s.toNat else BitVec.ofNat 8 (s + 256).toNat

/-- `decode(bytes, offset, length, endianness)` on a buffer held as a list, with unsigned integers: the bytes of the
window weighed by 256 (00_scope R5, R10; 40_decode R59). The document leaves lengths outside 1 to 4 undefined; that the
function fails there with InvalidArgumentError is DEDUCED from 60_exceptions R78 and 92_eei_decisions D30 (log entry 16,
unsafe for the original software at those lengths). -/
def decodeCall (bytes : List Byte) (offset length : Nat) (e : Endian) : Except DocError Nat :=
  if length < 1 ∨ 4 < length then .error .invalidArgument
  else if bytes.length < offset + length then .error .truncatedInput
  else
    match e with
    | .little => .ok (((bytes.drop offset).take length).foldr (fun b n => n * 256 + b.toNat) 0)
    | .big => .ok (((bytes.drop offset).take length).foldl (fun n b => n * 256 + b.toNat) 0)

/-- The request of a call with a length of three bits (30_encoding R58). -/
def requestOfCall (offset : Nat) (length : BitVec 3) (e : Endian) : Instr := Instr.ofFields e length offset

/-- What a consumer reads from the output ports: nothing while `resp_valid` is 0 or for the reserved status, else the
value or the document's error kind (60_exceptions R83, 93_implementation_defined I3). -/
def answer (o : Outputs) : Option (Except DocError Nat) :=
  if o.respValid then
    match readStatus o.respStatus with
    | some none => some (.ok o.respData.toNat)
    | some (some c) => some (.error (errorKind c))
    | none => none
  else none

/-- The signed value a consumer takes from a response of `n` bytes, `sext_32(DATA[8n-1:0])` (40_decode R76): the
consumer's step, not the block's. -/
def signedValue (n : Nat) (data : Word) : Int := ((data.setWidth (8 * n)).signExtend 32).toInt

end Sys2Proof.Document
end

