-- ==== Sys2Proof/Safety.lean ====
section
/-! DEFINITION. What holds of a ByteCodec in every state that reset and steps lead to, and what a failed response is
(60_exceptions R84). -/

namespace Sys2Proof.Safety

open Sys2Proof.Machine

/-- The invariant of the machine. It rules out what no run reaches: a reserved status (60_exceptions R86), an error
answer with data or without the sticky flag (R77, R82), bytes outside the address space (20_memory R30), and reads at
or above the bound or in a cycle without a success (R39). -/
structure Inv (s : State) : Prop where
  buf_canonical : s.buf.wf
  buf_in_space : ∀ c ∈ s.buf, c.1 < 2 ^ s.addrW
  bound_fits : s.bound < 2 ^ (s.addrW + 1)
  status_legal : s.respStatus ≠ statusReserved
  error_data : s.respStatus ≠ statusOk → s.respData = 0x00000000#32
  error_sticky : s.respStatus ≠ statusOk → s.stickyErr = true
  reads_below_bound : ∀ a ∈ s.reads, a < s.effectiveBound
  reads_of_success : s.reads ≠ [] → s.respValid = true ∧ s.respStatus = statusOk
  reads_window : ∃ o n, n ≤ 4 ∧ s.reads = List.range' o n
  data_width : s.respValid = true → s.respStatus = statusOk → s.respData.toNat < 2 ^ (8 * s.reads.length)

/-- The response held in a state is an error (10_state R20). -/
def FailedResponse (s : State) : Prop := s.respValid = true ∧ s.respStatus ≠ statusOk

end Sys2Proof.Safety
end

