-- ==== Sys2Proof/Certificates/Slice0/Obligations.lean ====
section
/-! DEFINITION. The statements for the provers: what the requests, the edge, the encoding and the whole machine do. -/

namespace Sys2Proof.Says

open Sys2Proof.Machine

/-- The effective bound, written out (20_memory R31). -/
def eb (s : State) : Nat := min s.bound (2 ^ s.addrW)

/-- The state after a successful request: the answer, the addresses read, and everything else as it was. -/
def answered (s : State) (data : Word) (addrs : List Nat) : State :=
  { s with respValid := true, respData := data, respStatus := 0b00#2, reads := addrs }

/-- The state after a failed request: the error code, data 0, the sticky flag set, nothing read, and everything else as
it was. -/
def failed (s : State) (status : BitVec 2) : State :=
  { s with respValid := true, respData := 0x00000000#32, respStatus := status, stickyErr := true, reads := [] }

end Sys2Proof.Says

open Sys2Proof Sys2Proof.Machine Sys2Proof.Says

/-! ### Encoding -/

/-- Decoding the packed word of a well-formed request gives the request back, with every operand, at every `ADDR_W`
(30_encoding R47, R50). -/
def Obligations.DecodeOfEncodeGivesTheRequest : Prop :=
  ∀ (addrW : Nat) (i : Instr), i.wf addrW = true → decode (encode addrW i) = i

/-- Every packed word decodes to a well-formed request that encodes to that word: no bit is dropped, no two words share
a meaning (30_encoding R55). -/
def Obligations.EncodeOfDecodeGivesTheWord : Prop :=
  ∀ (addrW : Nat) (w : BitVec (addrW + 4)), (decode w).wf addrW = true ∧ encode addrW (decode w) = w

/-- The decode looks at `req[3:0]` only to choose the operation: it never depends on the offset bits, and it is one of
the eight DEC requests or an ELEN request (30_encoding R55). -/
def Obligations.DecodeLooksAtTheCommandNibbleOnly : Prop :=
  ∀ (addrW addrW' : Nat) (w : BitVec (addrW + 4)) (w' : BitVec (addrW' + 4)),
    w.extractLsb' 0 4 = w'.extractLsb' 0 4 →
      (decode w).mnemonic = (decode w').mnemonic ∧ (decode w).endian = (decode w').endian ∧
      (decode w).len = (decode w').len ∧
      ((1 ≤ (decode w).len ∧ (decode w).len ≤ 4) ∨ ∀ s, exec (decode w) s = .next (failed s 0b01#2))

/-- The table of the sixteen command nibbles, each with its request, the eight illegal ones with their answer ELEN
(30_encoding R50). -/
def Obligations.TheSixteenNibblesSelectTheRequests : Prop :=
  ∀ (addrW : Nat) (o : BitVec addrW),
    decode (o ++ 0b0000#4) = .decX0 .little o.toNat ∧
    decode (o ++ 0b0001#4) = .decLe1 o.toNat ∧
    decode (o ++ 0b0010#4) = .decLe2 o.toNat ∧
    decode (o ++ 0b0011#4) = .decLe3 o.toNat ∧
    decode (o ++ 0b0100#4) = .decLe4 o.toNat ∧
    decode (o ++ 0b0101#4) = .decX5 .little o.toNat ∧
    decode (o ++ 0b0110#4) = .decX6 .little o.toNat ∧
    decode (o ++ 0b0111#4) = .decX7 .little o.toNat ∧
    decode (o ++ 0b1000#4) = .decX0 .big o.toNat ∧
    decode (o ++ 0b1001#4) = .decBe1 o.toNat ∧
    decode (o ++ 0b1010#4) = .decBe2 o.toNat ∧
    decode (o ++ 0b1011#4) = .decBe3 o.toNat ∧
    decode (o ++ 0b1100#4) = .decBe4 o.toNat ∧
    decode (o ++ 0b1101#4) = .decX5 .big o.toNat ∧
    decode (o ++ 0b1110#4) = .decX6 .big o.toNat ∧
    decode (o ++ 0b1111#4) = .decX7 .big o.toNat ∧
    ∀ (k : BitVec 4), k ∈ [0b0000#4, 0b0101#4, 0b0110#4, 0b0111#4, 0b1000#4, 0b1101#4, 0b1110#4, 0b1111#4] →
      ∀ s, exec (decode (o ++ k)) s = .next (failed s 0b01#2)

/-- At `ADDR_W = 28` the packed word has 32 bits, with the offset in `req[31:4]`, the byte order in `req[3]` and the
length in `req[2:0]`, so it is `(offset << 4) | (endian << 3) | len` (30_encoding R48). -/
def Obligations.PackedWordIsShiftedFieldsOred : Prop :=
  Config.defaultAddrW = 28 ∧
  ∀ i : Instr, i.wf 28 = true →
    ∀ w : BitVec 32, w = encode 28 i →
      w.extractLsb' 4 28 = BitVec.ofNat 28 i.offset ∧
      w.extractLsb' 3 1 = i.endian.bit ∧
      w.extractLsb' 0 3 = BitVec.ofNat 3 i.len ∧
      w = (BitVec.ofNat 32 i.offset <<< 4) ||| (i.endian.bit.setWidth 32 <<< 3) ||| BitVec.ofNat 32 i.len

/-- A row of opcode_table.json matches a 32-bit packed word exactly when the word decodes to the row's instruction
(30_encoding R50, R53). -/
def Obligations.OpcodeTableRowsMatchExactlyTheirInstruction : Prop :=
  ∀ (w : BitVec 32) (r : OpcodeRow), r ∈ opcodeTable →
    (r.covers w = true ↔ (decode (addrW := 28) w).mnemonic = r.mnemonic)

/-- Words written out in the spec's listings decode to the requests they stand for (95_test_vectors 2.1 to 2.4, P2). -/
def Obligations.ListedWordsDecodeToTheirRequests : Prop :=
  decodeTableWord 32 0x00000001 = some (.decLe1 0) ∧
  decodeTableWord 32 0x000002C2 = some (.decLe2 44) ∧
  decodeTableWord 32 0x00000363 = some (.decLe3 54) ∧
  decodeTableWord 32 0xFFFFFFC4 = some (.decLe4 0x0FFFFFFC) ∧
  decodeTableWord 32 0x00000039 = some (.decBe1 3) ∧
  decodeTableWord 32 0x0000007A = some (.decBe2 7) ∧
  decodeTableWord 32 0x0000036B = some (.decBe3 54) ∧
  decodeTableWord 32 0xFFFFFFCC = some (.decBe4 0x0FFFFFFC) ∧
  decodeTableWord 32 0x00000000 = some (.decX0 .little 0) ∧
  decodeTableWord 32 0x0000000D = some (.decX5 .big 0) ∧
  decodeTableWord 32 0x00000006 = some (.decX6 .little 0) ∧
  decodeTableWord 32 0x00003E8F = some (.decX7 .big 1000)

/-- The pseudo-instructions are names for one request each, and `DEC.LE.1` and `DEC.BE.1` give the same result
(30_encoding R57). -/
def Obligations.PseudoInstructionsNameTheirRequests : Prop :=
  ∀ (addrW o : Nat),
    Line.word addrW (.pseudo .u8 o) = some (encode addrW (.decLe1 o)) ∧
    Line.word addrW (.pseudo .u16le o) = some (encode addrW (.decLe2 o)) ∧
    Line.word addrW (.pseudo .u32le o) = some (encode addrW (.decLe4 o)) ∧
    Line.word addrW (.pseudo .u16be o) = some (encode addrW (.decBe2 o)) ∧
    Line.word addrW (.pseudo .u32be o) = some (encode addrW (.decBe4 o)) ∧
    Line.word addrW (.pseudo .tag2 o) = some (encode addrW (.decBe2 o)) ∧
    Line.word addrW (.pseudo .tag4 o) = some (encode addrW (.decBe4 o)) ∧
    ∀ s, exec (.decLe1 o) s = exec (.decBe1 o) s

/-- A line `DEC.<order>.<n> <offset>` assembles to the offset above the byte order above the length, for every length 0
to 7; its cycle presents that word outside reset; `IDLE` has no word and presents nothing (30_encoding R56). -/
def Obligations.ListingLinesAssembleToTheirWords : Prop :=
  ∀ (addrW : Nat) (e : Endian) (n : BitVec 3) (o : Nat), (Line.dec e n o).wf addrW = true →
    ∃ w : BitVec (addrW + 4),
      Line.word addrW (.dec e n o) = some w ∧ w.toNat = o * 16 + e.bit.toNat * 8 + n.toNat ∧
      (∃ p, Line.cycle addrW (.dec e n o) = .request false p ∧ p.wf addrW = true ∧ p.pack addrW = w) ∧
      Line.word addrW .idle = none ∧
      (Line.cycle addrW .idle).reqValid = false ∧ (Line.cycle addrW .idle).rst = false

/-! ### The edge -/

/-- When the request ports present the packed word of a well-formed request outside reset, a step is that request's
meaning, with the cycle taken off the list of cycles to come; for any levels of the ports it is the meaning of the
request they decode to; and a word presented for the next cycle is decoded and run by the next step (30_encoding R46,
R47; 70_reset_and_hazards R100). -/
def Obligations.StepRunsTheDecodedRequest : Prop :=
  (∀ (s : State) (i : Instr) (p : Ports) (rest : List ClockCycle),
    s.inputs = .request false p :: rest → p.wf s.addrW = true → i.wf s.addrW = true →
    p.pack s.addrW = encode s.addrW i → step s = exec i { s with inputs := rest }) ∧
  (∀ (s : State) (p : Ports) (rest : List ClockCycle),
    s.inputs = .request false p :: rest → p.wf s.addrW = true →
    step s = exec (decode (p.pack s.addrW)) { s with inputs := rest }) ∧
  (∀ (s : State) (w : BitVec (s.addrW + 4)), step (s.present w) = exec (decode w) s)

/-- An edge outside reset with `req_valid = 0` writes `RESP.VALID <- 0` and nothing else of the block, and reads no
address; the levels of the other request ports have no effect on any state (40_decode R73, 30_encoding R54). -/
def Obligations.IdleEdgeClearsOnlyValid : Prop :=
  ∀ (s : State) (p : Ports) (ch : Change) (rest : List ClockCycle),
    s.inputs = .quiet false p ch :: rest → p.wf s.addrW = true → ch.wf s.addrW = true →
    (∃ t, step s = .next t ∧ t.respValid = false ∧ t.respData = s.respData ∧ t.respStatus = s.respStatus ∧
      t.stickyErr = s.stickyErr ∧ t.reads = []) ∧
    ∀ q : Ports, q.wf s.addrW = true → step { s with inputs := .quiet false q ch :: rest } = step s

/-- The model's choice of log entry 2: when no cycle is listed, nothing is presented, and the edge is idle. -/
def Obligations.AnEmptyListOfCyclesIsIdle : Prop :=
  ∀ s : State, s.inputs = [] → step s = .next { s with respValid := false, reads := [] }

/-- At every edge with `rst = 1` the reset values are written, whatever is presented, and nothing is read; a request
presented at such an edge is dropped: no response, no sticky flag, and the buffer, the bound and the cycles to come as if
nothing had been presented; reset is the only way to clear `STICKY_ERR` (70_reset_and_hazards R93, R94). That a step with
no listed cycle does not clear it either is the model's choice (log entry 2). -/
def Obligations.ResetEdgeWritesTheResetValues : Prop :=
  (∀ (s : State) (c : ClockCycle) (rest : List ClockCycle),
    s.inputs = c :: rest → c.rst = true → c.wf s.addrW = true →
    ∃ t, step s = .next t ∧ t.respValid = false ∧ t.respData = 0x00000000#32 ∧ t.respStatus = 0b00#2 ∧
      t.stickyErr = false ∧ t.reads = [] ∧ t.inputs = rest) ∧
  (∀ (s : State) (p q : Ports) (rest : List ClockCycle),
    s.inputs = .request true p :: rest → p.wf s.addrW = true → q.wf s.addrW = true →
    step s = step { s with inputs := .quiet true q ⟨[], none⟩ :: rest }) ∧
  (∀ s t : State, step s = .next t → s.stickyErr = true → t.stickyErr = false →
    ∃ c rest, s.inputs = c :: rest ∧ c.rst = true)

/-- Every piece of the block's state has its reset value, in `State.reset` and after the reset edge from any state; the
inputs are left to the environment (10_state R27). -/
def Obligations.ResetValuesOfEveryPieceOfState : Prop :=
  (State.reset.respValid = false ∧ State.reset.respData = 0x00000000#32 ∧ State.reset.respStatus = 0b00#2 ∧
    State.reset.stickyErr = false) ∧
  ∀ s : State,
    (s.resetEdge.respValid = false ∧ s.resetEdge.respData = 0x00000000#32 ∧ s.resetEdge.respStatus = 0b00#2 ∧
      s.resetEdge.stickyErr = false) ∧
    s.resetEdge.buf = s.buf ∧ s.resetEdge.bound = s.bound ∧ s.resetEdge.inputs = s.inputs ∧
    s.resetEdge.addrW = s.addrW

/-- The output ports are the four pieces of state, and no input reaches them within a cycle (10_state R29). -/
def Obligations.OutputsAreDrivenByStateAlone : Prop :=
  ∀ s : State,
    s.outputs = { respValid := s.respValid, respData := s.respData, respStatus := s.respStatus,
                  errSticky := s.stickyErr } ∧
    ∀ (inputs : List ClockCycle) (buf : Memory) (bound : Nat),
      State.outputs { s with inputs := inputs, buf := buf, bound := bound } = s.outputs

/-! ### The requests, one by one. Each is stated with its whole next state: the answer and what stays as it was. -/

/-- `DEC.LE.1` (40_decode R65). -/
def Obligations.DecLe1ReadsOneByte : Prop :=
  ∀ (s : State) (o : Nat),
    (o + 1 ≤ eb s → exec (.decLe1 o) s = .next (answered s ((s.buf.read o).setWidth 32) [o])) ∧
    (eb s < o + 1 → exec (.decLe1 o) s = .next (failed s 0b10#2)) ∧
    (o < 2 ^ s.addrW → encode s.addrW (.decLe1 o) = BitVec.ofNat s.addrW o ++ 0b0001#4) ∧
    exec (.decLe1 o) s = exec (.decBe1 o) s

/-- `DEC.LE.2` (40_decode R66). -/
def Obligations.DecLe2ReadsTwoBytesFirstLeast : Prop :=
  ∀ (s : State) (o : Nat),
    (o + 2 ≤ eb s →
      exec (.decLe2 o) s = .next (answered s ((s.buf.read (o + 1) ++ s.buf.read o).setWidth 32) [o, o + 1])) ∧
    (eb s < o + 2 → exec (.decLe2 o) s = .next (failed s 0b10#2)) ∧
    (o < 2 ^ s.addrW → encode s.addrW (.decLe2 o) = BitVec.ofNat s.addrW o ++ 0b0010#4)

/-- `DEC.LE.3` (40_decode R67). -/
def Obligations.DecLe3ReadsThreeBytesFirstLeast : Prop :=
  ∀ (s : State) (o : Nat),
    (o + 3 ≤ eb s →
      exec (.decLe3 o) s =
        .next (answered s ((s.buf.read (o + 2) ++ s.buf.read (o + 1) ++ s.buf.read o).setWidth 32)
          [o, o + 1, o + 2])) ∧
    (eb s < o + 3 → exec (.decLe3 o) s = .next (failed s 0b10#2)) ∧
    (o < 2 ^ s.addrW → encode s.addrW (.decLe3 o) = BitVec.ofNat s.addrW o ++ 0b0011#4)

/-- `DEC.LE.4` (40_decode R68). -/
def Obligations.DecLe4ReadsFourBytesFirstLeast : Prop :=
  ∀ (s : State) (o : Nat),
    (o + 4 ≤ eb s →
      exec (.decLe4 o) s =
        .next (answered s (s.buf.read (o + 3) ++ s.buf.read (o + 2) ++ s.buf.read (o + 1) ++ s.buf.read o)
          [o, o + 1, o + 2, o + 3])) ∧
    (eb s < o + 4 → exec (.decLe4 o) s = .next (failed s 0b10#2)) ∧
    (o < 2 ^ s.addrW → encode s.addrW (.decLe4 o) = BitVec.ofNat s.addrW o ++ 0b0100#4)

/-- `DEC.BE.1` (40_decode R69). -/
def Obligations.DecBe1ReadsOneByte : Prop :=
  ∀ (s : State) (o : Nat),
    (o + 1 ≤ eb s → exec (.decBe1 o) s = .next (answered s ((s.buf.read o).setWidth 32) [o])) ∧
    (eb s ≤ o → exec (.decBe1 o) s = .next (failed s 0b10#2)) ∧
    (o < 2 ^ s.addrW → encode s.addrW (.decBe1 o) = BitVec.ofNat s.addrW o ++ 0b1001#4) ∧
    exec (.decBe1 o) s = exec (.decLe1 o) s

/-- `DEC.BE.2` (40_decode R70). -/
def Obligations.DecBe2ReadsTwoBytesFirstMost : Prop :=
  ∀ (s : State) (o : Nat),
    (o + 2 ≤ eb s →
      exec (.decBe2 o) s = .next (answered s ((s.buf.read o ++ s.buf.read (o + 1)).setWidth 32) [o, o + 1])) ∧
    (eb s < o + 2 → exec (.decBe2 o) s = .next (failed s 0b10#2)) ∧
    (o < 2 ^ s.addrW → encode s.addrW (.decBe2 o) = BitVec.ofNat s.addrW o ++ 0b1010#4)

/-- `DEC.BE.3` (40_decode R71). -/
def Obligations.DecBe3ReadsThreeBytesFirstMost : Prop :=
  ∀ (s : State) (o : Nat),
    (o + 3 ≤ eb s →
      exec (.decBe3 o) s =
        .next (answered s ((s.buf.read o ++ s.buf.read (o + 1) ++ s.buf.read (o + 2)).setWidth 32)
          [o, o + 1, o + 2])) ∧
    (eb s < o + 3 → exec (.decBe3 o) s = .next (failed s 0b10#2)) ∧
    (o < 2 ^ s.addrW → encode s.addrW (.decBe3 o) = BitVec.ofNat s.addrW o ++ 0b1011#4)

/-- `DEC.BE.4` (40_decode R72). -/
def Obligations.DecBe4ReadsFourBytesFirstMost : Prop :=
  ∀ (s : State) (o : Nat),
    (o + 4 ≤ eb s →
      exec (.decBe4 o) s =
        .next (answered s (s.buf.read o ++ s.buf.read (o + 1) ++ s.buf.read (o + 2) ++ s.buf.read (o + 3))
          [o, o + 1, o + 2, o + 3])) ∧
    (eb s < o + 4 → exec (.decBe4 o) s = .next (failed s 0b10#2)) ∧
    (o < 2 ^ s.addrW → encode s.addrW (.decBe4 o) = BitVec.ofNat s.addrW o ++ 0b1100#4)

/-- A request of illegal length 0, 5, 6 or 7 answers ELEN in either byte order, whatever its offset and the bound are:
its own effect, with nothing read and everything else as it was; it corresponds to the document's InvalidArgumentError
(60_exceptions R78, R81). -/
def Obligations.IllegalLengthsAnswerElen : Prop :=
  (∀ (s : State) (e : Endian) (o : Nat),
    exec (.decX0 e o) s = .next (failed s 0b01#2) ∧ exec (.decX5 e o) s = .next (failed s 0b01#2) ∧
    exec (.decX6 e o) s = .next (failed s 0b01#2) ∧ exec (.decX7 e o) s = .next (failed s 0b01#2)) ∧
  (∀ (i : Instr) (s t : State), exec i s = .next t → t.respStatus = 0b10#2 → 1 ≤ i.len ∧ i.len ≤ 4) ∧
  Document.answer (failed State.reset 0b01#2).outputs = some (.error .invalidArgument)

/-- A request of legal length whose window passes the effective bound answers EBOUND: no address is read, not even those
of the window below the bound; it corresponds to the document's TruncatedInputError (60_exceptions R79). -/
def Obligations.WindowPastTheBoundAnswersEbound : Prop :=
  (∀ (i : Instr) (s : State), 1 ≤ i.len → i.len ≤ 4 → eb s < i.offset + i.len →
    exec i s = .next (failed s 0b10#2)) ∧
  Document.answer (failed State.reset 0b10#2).outputs = some (.error .truncatedInput)

/-- A request succeeds exactly when its length is 1 to 4 and its window fits, at any alignment of its offset; every
request completes (20_memory R35, R40). -/
def Obligations.ARequestSucceedsExactlyWhenItsWindowFits : Prop :=
  ∀ (i : Instr) (s : State), ∃ t, exec i s = .next t ∧ t.respValid = true ∧
    (t.respStatus = 0b00#2 ↔ (1 ≤ i.len ∧ i.len ≤ 4) ∧ i.offset + i.len ≤ eb s)

/-- The effective bound is the smaller of `BOUND` and `2^ADDR_W`; a `BOUND` above `2^ADDR_W` acts as `2^ADDR_W`, and a
`BOUND` of 0 makes every request of legal length fail (20_memory R31). -/
def Obligations.EffectiveBoundIsTheSmallerBound : Prop :=
  (∀ s : State, s.effectiveBound = min s.bound (2 ^ s.addrW)) ∧
  (∀ (i : Instr) (s t : State) (b : Nat), 2 ^ s.addrW ≤ b → exec i { s with bound := 2 ^ s.addrW } = .next t →
    exec i { s with bound := b } = .next { t with bound := b }) ∧
  (∀ (i : Instr) (s : State), 1 ≤ i.len → i.len ≤ 4 → s.bound = 0 → exec i s = .next (failed s 0b10#2))

/-! ### The value -/

/-- The closed forms of the two loops, and their range (40_decode R63). -/
def Obligations.DecodedValuesAreWeightedByteSums : Prop :=
  ∀ (s : State) (o n : Nat), 1 ≤ n → n ≤ 4 →
    (s.decodeLE o n).1.toNat = ∑ i ∈ Finset.range n, (s.buf.read (o + i)).toNat * 2 ^ (8 * i) ∧
    (s.decodeBE o n).1.toNat = ∑ i ∈ Finset.range n, (s.buf.read (o + i)).toNat * 2 ^ (8 * (n - 1 - i)) ∧
    (s.decodeLE o n).1.toNat < 2 ^ (8 * n) ∧ (s.decodeBE o n).1.toNat < 2 ^ (8 * n)

/-- The loops are the byte-lane multiplexer: result lane `k` is one byte of the window or 0 (40_decode R64). -/
def Obligations.DecodeIsAByteLaneMultiplexer : Prop :=
  ∀ (s : State) (o n k : Nat), 1 ≤ n → n ≤ 4 → k < 4 →
    (s.decodeLE o n).1.extractLsb' (8 * k) 8 = (if k < n then s.buf.read (o + k) else 0x00#8) ∧
    (s.decodeBE o n).1.extractLsb' (8 * k) 8 = (if k < n then s.buf.read (o + (n - 1 - k)) else 0x00#8)

/-- The order laws: (a) little-endian decoding is big-endian decoding of the reversed bytes, (b) the one-byte requests
agree, (c) the two four-byte values are each other with their lanes swapped (40_decode R75, 90_conflicts C1). -/
def Obligations.ByteOrdersMirrorEachOther : Prop :=
  (∀ (s s' : State) (o o' n : Nat), n ≤ 4 →
    (∀ i < n, s.buf.read (o + i) = s'.buf.read (o' + (n - 1 - i))) →
    (s.decodeLE o n).1 = (s'.decodeBE o' n).1) ∧
  (∀ (s : State) (o : Nat), exec (.decLe1 o) s = exec (.decBe1 o) s) ∧
  (∀ (s : State) (o k : Nat), k < 4 →
    (s.decodeBE o 4).1.extractLsb' (8 * k) 8 = (s.decodeLE o 4).1.extractLsb' (8 * (3 - k)) 8)

/-- Every value of `8n` bits is the answer to a request of length `n`, for some contents of its window, in either order
(40_decode R74). -/
def Obligations.EveryValueOfTheWidthIsReached : Prop :=
  ∀ (s : State) (e : Endian) (len : BitVec 3) (o v : Nat),
    s.buf.wf → 1 ≤ len.toNat → len.toNat ≤ 4 → o + len.toNat ≤ eb s → v < 2 ^ (8 * len.toNat) →
    ∃ cells : List Host.Cell, (∀ c ∈ cells, o ≤ c.1 ∧ c.1 < o + len.toNat) ∧
      ∃ t, exec (Instr.ofFields e len o) { s with buf := s.buf.fill cells } = .next t ∧
        t.respStatus = 0b00#2 ∧ t.respData.toNat = v

/-! ### Reading, and what a request depends on -/

/-- A success reads exactly the addresses of its window, all below the effective bound; a failure reads none
(20_memory R39). -/
def Obligations.ARequestReadsExactlyItsWindow : Prop :=
  ∀ (i : Instr) (s t : State), exec i s = .next t →
    (t.respStatus = 0b00#2 →
      (∀ a, a ∈ t.reads ↔ i.offset ≤ a ∧ a < i.offset + i.len) ∧ ∀ a ∈ t.reads, a < eb s) ∧
    (t.respStatus ≠ 0b00#2 → t.reads = [])

/-- The response is a function of the request, `BOUND` and the bytes of the window: two blocks, in any states, that
accept the same request over buffers that agree on its window answer alike and read the same addresses (00_scope R14). -/
def Obligations.ResponseDependsOnlyOnRequestBoundAndWindow : Prop :=
  ∀ (s s' : State) (p : Ports) (rest rest' : List ClockCycle),
    s.inputs = .request false p :: rest → s'.inputs = .request false p :: rest' → p.wf s.addrW = true →
    s.addrW = s'.addrW → s.bound = s'.bound →
    (∀ a, p.offset ≤ a → a < p.offset + p.len.toNat → s.buf.read a = s'.buf.read a) →
    ∃ t t', step s = .next t ∧ step s' = .next t' ∧ t.respValid = t'.respValid ∧ t.respData = t'.respData ∧
      t.respStatus = t'.respStatus ∧ t.reads = t'.reads

/-- A request's answer depends on nothing an earlier request left, a failed one included: the second of two requests
answers as if the first had not been, and the sticky flag keeps both failures (10_state R24, 60_exceptions R80, R85). -/
def Obligations.EarlierRequestsLeaveNothingBehind : Prop :=
  ∀ (i j : Instr) (s t u v : State), exec i s = .next t → exec j t = .next u → exec j s = .next v →
    u.respValid = v.respValid ∧ u.respData = v.respData ∧ u.respStatus = v.respStatus ∧ u.reads = v.reads ∧
    u.stickyErr = (t.stickyErr || v.stickyErr)

/-- Reading has no side effect on the buffer, and the same request against the same buffer and bound always gives the
same response: repeated at once it changes nothing more (20_memory R37). -/
def Obligations.RepeatingARequestRepeatsTheAnswer : Prop :=
  (∀ (i : Instr) (s t : State), exec i s = .next t → t.buf = s.buf ∧ exec i t = .next t) ∧
  (∀ (i : Instr) (s s' : State), s.buf = s'.buf → s.bound = s'.bound → s.addrW = s'.addrW →
    ∃ t t', exec i s = .next t ∧ exec i s' = .next t' ∧ t.respValid = t'.respValid ∧ t.respData = t'.respData ∧
      t.respStatus = t'.respStatus)

/-! ### Frames -/

/-- The block never writes the buffer or the bound: no request changes a byte or the bound, and a step leaves both as
they were but for what the environment changes in a cycle without a request (20_memory R38, 70_reset_and_hazards R98).
The model's choices in it: that the changes of a cycle are made in the order listed and are in place after its edge (log
entry 10), and that a step with no listed cycle is an idle edge (log entry 2). -/
def Obligations.TheBlockNeverWritesBufferOrBound : Prop :=
  (∀ (i : Instr) (s t : State), exec i s = .next t →
    (∀ a, t.buf.read a = s.buf.read a) ∧ t.buf = s.buf ∧ t.bound = s.bound) ∧
  (∀ s t : State, step s = .next t →
    (∀ r p ch rest, s.inputs = .quiet r p ch :: rest →
      t.buf = s.buf.fill ch.fill ∧ t.bound = ch.bound.getD s.bound) ∧
    ((∀ r p ch rest, s.inputs ≠ .quiet r p ch :: rest) → t.buf = s.buf ∧ t.bound = s.bound))

/-- Who writes what: an accepted request writes the response register, and the sticky flag if it fails; an idle edge
writes `RESP.VALID` alone; the rest of the block is written by nothing but reset (10_state R28). That a step with no
listed cycle writes none of it either is the model's choice (log entry 2). -/
def Obligations.AnEdgeWritesOnlyWhatItOwns : Prop :=
  ∀ s t : State, step s = .next t →
    (∀ p rest, s.inputs = .request false p :: rest →
      t = { s with respValid := true, respData := t.respData, respStatus := t.respStatus,
                   stickyErr := s.stickyErr || t.respStatus != 0b00#2, reads := t.reads, inputs := rest }) ∧
    (∀ p ch rest, s.inputs = .quiet false p ch :: rest →
      t.respValid = false ∧ t.respData = s.respData ∧ t.respStatus = s.respStatus ∧ t.stickyErr = s.stickyErr ∧
      t.addrW = s.addrW ∧ t.inputs = rest) ∧
    ((∀ c rest, s.inputs = c :: rest → c.rst = false) →
      t.respData ≠ s.respData ∨ t.respStatus ≠ s.respStatus ∨ t.stickyErr ≠ s.stickyErr →
      ∃ c rest, s.inputs = c :: rest ∧ c.accepted = true)

/-- `RESP.STATUS = 2'b11` is never written: no request writes it, and a step ends with it only from a state that held it
already (60_exceptions R86). That a step with no listed cycle keeps the status is the model's choice (log entry 2). -/
def Obligations.TheReservedStatusIsNeverWritten : Prop :=
  (∀ (i : Instr) (s t : State), exec i s = .next t → t.respStatus ≠ 0b11#2) ∧
  (∀ s t : State, step s = .next t → t.respStatus = 0b11#2 →
    s.respStatus = 0b11#2 ∧ ∀ c rest, s.inputs = c :: rest → c.rst = false ∧ c.reqValid = false)

/-! ### The machine over steps -/

/-- `RESP.VALID` after an edge: 1 exactly when a request was presented outside reset, an error included; its port carries
it; its reset value is 0 (10_state R18). That it is 0 after a step with no listed cycle is the model's choice (log
entry 2). -/
def Obligations.ValidMarksAcceptedRequests : Prop :=
  State.reset.respValid = false ∧
  ∀ s t : State, step s = .next t →
    t.outputs.respValid = t.respValid ∧
    (t.respValid = true ↔ ∃ c rest, s.inputs = c :: rest ∧ c.rst = false ∧ c.reqValid = true)

/-- The sticky flag after an edge: cleared by reset, set by a failing request, kept by a success and by an idle edge
(10_state R21, 60_exceptions R82). The last clause, on an empty list of cycles, is the model's choice (log entry 2): the
rules speak of a driven edge only. -/
def Obligations.StickyFlagChangesOnlyByFailureOrReset : Prop :=
  ∀ s t : State, step s = .next t →
    (∀ c rest, s.inputs = c :: rest → c.rst = true → t.stickyErr = false) ∧
    (∀ c rest, s.inputs = c :: rest → c.accepted = true →
      (t.respStatus ≠ 0b00#2 → t.stickyErr = true) ∧ (t.respStatus = 0b00#2 → t.stickyErr = s.stickyErr)) ∧
    (∀ c rest, s.inputs = c :: rest → c.rst = false → c.reqValid = false → t.stickyErr = s.stickyErr) ∧
    (s.inputs = [] → t.stickyErr = s.stickyErr)

/-- Over any run without a reset edge, the sticky flag is set at the end exactly when it was set at the start or some
edge of the run left an error response: a run that ends with it clear had no failed request (10_state R21,
60_exceptions R82). Steps of the run past the listed cycles are idle edges, the model's choice (log entry 2). -/
def Obligations.StickyFlagRecordsEveryFailureOfARun : Prop :=
  ∀ (k : Nat) (s t : State), Host.Core.run Sys2Proof.core k s = .next t →
    (∀ c ∈ s.inputs.take k, c.rst = false) →
    (t.stickyErr = true ↔
      s.stickyErr = true ∨
        ∃ j, j < k ∧ ∃ u : State, Host.Core.run Sys2Proof.core (j + 1) s = .next u ∧ Safety.FailedResponse u)

/-- The block is always ready: every step from a state whose next cycle the ports can carry goes on and takes that cycle
off the list (70_reset_and_hazards R101). That a step goes on with no listed cycle is the model's choice (log entry 2). -/
def Obligations.EveryDrivableCycleIsTaken : Prop :=
  ∀ s : State, (∀ c rest, s.inputs = c :: rest → c.wf s.addrW = true) →
    ∃ t, step s = .next t ∧ t.inputs = s.inputs.tail ∧ t.addrW = s.addrW

/-- The model's choice of log entry 7: a step stops exactly when the next cycle drives what no port carries; it never
refuses (30_encoding R46, 00_scope R7). -/
def Obligations.AStepStopsOnlyOnUndrivableInput : Prop :=
  ∀ s : State,
    (step s = .fault .undrivableInput ↔ ∃ c rest, s.inputs = c :: rest ∧ c.wf s.addrW = false) ∧
    ∀ r, step s ≠ .refused r

/-- A response stands for one cycle: an idle edge after a request keeps data and status while `RESP.VALID` falls, and a
request after a request overwrites the response with its own (70_reset_and_hazards R100, R102). -/
def Obligations.AResponseStandsUntilTheNextEdge : Prop :=
  (∀ (s : State) (p q : Ports) (ch : Change) (rest : List ClockCycle),
    s.inputs = .request false p :: .quiet false q ch :: rest → p.wf s.addrW = true → q.wf s.addrW = true →
    ch.wf s.addrW = true →
    ∃ t u, step s = .next t ∧ step t = .next u ∧ t.respValid = true ∧ u.respValid = false ∧
      u.respData = t.respData ∧ u.respStatus = t.respStatus ∧ u.stickyErr = t.stickyErr) ∧
  (∀ (s : State) (p q : Ports) (rest : List ClockCycle),
    s.inputs = .request false p :: .request false q :: rest → p.wf s.addrW = true → q.wf s.addrW = true →
    ∃ t u v, step s = .next t ∧ step t = .next u ∧
      exec (decode (q.pack s.addrW)) { s with inputs := rest } = .next v ∧
      u.respValid = true ∧ u.respData = v.respData ∧ u.respStatus = v.respStatus)

/-- A change of the buffer and the bound in a cycle without a request is in place for a request in the next cycle: it
answers as if the buffer had always held the new bytes; a byte the environment writes reads as last written, any other
as before (70_reset_and_hazards R98). That a change is in place after the edge of its cycle, made in the order listed, is
the model's choice (log entry 10). -/
def Obligations.ALaterRequestSeesTheChangedBuffer : Prop :=
  (∀ (s : State) (r : Bool) (p q : Ports) (ch : Change) (rest : List ClockCycle),
    s.inputs = .quiet r p ch :: .request false q :: rest → p.wf s.addrW = true → ch.wf s.addrW = true →
    q.wf s.addrW = true →
    ∃ t u v, step s = .next t ∧ step t = .next u ∧
      exec (decode (q.pack s.addrW))
        { s with inputs := rest, buf := s.buf.fill ch.fill, bound := ch.bound.getD s.bound } = .next v ∧
      u.respValid = v.respValid ∧ u.respData = v.respData ∧ u.respStatus = v.respStatus ∧ u.reads = v.reads) ∧
  (∀ (m : Memory) (a : Nat) (v : Byte) (before after : List Host.Cell), m.wf → (∀ c ∈ after, c.1 ≠ a) →
    (m.fill (before ++ (a, v) :: after)).read a = v) ∧
  (∀ (m : Memory) (a : Nat) (cells : List Host.Cell), (∀ c ∈ cells, c.1 ≠ a) → (m.fill cells).read a = m.read a)

/-- Every step keeps the invariant of the machine, from every state that has it. Its cases of a step with no listed cycle
and of a change of the buffer and the bound are the model's choices (log entries 2 and 10). -/
def Obligations.EveryStepKeepsTheMachineSound : Prop :=
  ∀ s t : State, Safety.Inv s → step s = .next t → Safety.Inv t

/-- The state after reset has the invariant. -/
def Obligations.TheMachineIsSoundAfterReset : Prop := Safety.Inv State.reset

/-! ### The document's function -/

/-- The requests refine the document's pure function as the model reads it: over a buffer that holds the bytes of a list,
with the list's length as bound, every call with a length of three bits is answered with the value or the error kind of
`Document.decodeCall` (00_scope R5, R10; 30_encoding R58; 40_decode R59; 60_exceptions R78, R79; 92_eei_decisions D30).
For lengths 0, 5, 6 and 7 the document gives no result (R58 maps lengths 1 to 4, 93_implementation_defined I1, I2): that
the function fails there with InvalidArgumentError is the model's reading (log entry 16). -/
def Obligations.RequestsRefineTheDocumentsDecode : Prop :=
  ∀ (s : State) (bytes : List Byte) (o : Nat) (len : BitVec 3) (e : Endian),
    s.bound = bytes.length → bytes.length ≤ 2 ^ s.addrW →
    (∀ i < bytes.length, bytes[i]? = some (s.buf.read i)) →
    ∃ t, exec (Document.requestOfCall o len e) s = .next t ∧
      Document.answer t.outputs = some (Document.decodeCall bytes o len.toNat e)

/-- A byte the host stores signed is seen as `s` when not negative and as `s + 256` when negative: the pattern
`s & 0xFF` (00_scope R11). -/
def Obligations.HostSignedBytesAreRebiased : Prop :=
  ∀ z : Int, -128 ≤ z → z ≤ 127 →
    ((Document.rebias z).toNat : Int) = (if 0 ≤ z then z else z + 256) ∧
    (Document.rebias z).toInt = z ∧ Document.rebias z = BitVec.ofInt 8 z &&& 0xFF#8
end

