-- ==== Sys2Proof/Laws/Decode.lean ====
section
/-! SUPPORT. The fields of a packed word, written and read (30_encoding R47), and the fields of a request. -/

namespace Sys2Proof

/-- The number a concatenation with a 4-bit low part stands for. -/
theorem append_nibble_toNat {addrW : Nat} (o : BitVec addrW) (k : BitVec 4) :
    (o ++ k : BitVec (addrW + 4)).toNat = o.toNat * 16 + k.toNat := by
  rw [BitVec.toNat_append, ← Nat.shiftLeft_add_eq_or_of_lt k.isLt, Nat.shiftLeft_eq]

/-- Field `len` as a number. -/
theorem lenField_toNat {addrW : Nat} (w : BitVec (addrW + 4)) : (lenField w).toNat = w.toNat % 8 := by
  simp [lenField, BitVec.extractLsb'_toNat]

/-- Field `endian` as a number. -/
theorem endianField_toNat {addrW : Nat} (w : BitVec (addrW + 4)) : (endianField w).toNat = w.toNat / 8 % 2 := by
  simp [endianField, BitVec.extractLsb'_toNat, Nat.shiftRight_eq_div_pow]

/-- Field `offset` as a number. -/
theorem offsetField_eq {addrW : Nat} (w : BitVec (addrW + 4)) : offsetField w = w.toNat / 16 := by
  have hw := w.isLt
  rw [Nat.pow_add] at hw
  simp only [offsetField, BitVec.extractLsb'_toNat, Nat.shiftRight_eq_div_pow]
  exact Nat.mod_eq_of_lt (by omega)

/-- An offset read from a word fits its field. -/
theorem offsetField_lt {addrW : Nat} (w : BitVec (addrW + 4)) : offsetField w < 2 ^ addrW := BitVec.isLt _

/-- The length bits of a request's command nibble (30_encoding R50). -/
theorem Instr.nibble_toNat (i : Instr) : i.nibble.toNat = i.endian.bit.toNat * 8 + i.len := by
  cases i with
  | decX0 e _ | decX5 e _ | decX6 e _ | decX7 e _ => cases e <;> rfl
  | _ => rfl

theorem Instr.len_lt (i : Instr) : i.len < 8 := by cases i <;> simp [Instr.len]

@[simp] theorem Endian.ofBit_bit (e : Endian) : Endian.ofBit e.bit = e := by cases e <;> rfl

@[simp] theorem Endian.bit_ofBit (b : BitVec 1) : (Endian.ofBit b).bit = b := by revert b; decide

/-- The fields of a request name it (30_encoding R50). -/
theorem Instr.ofFields_fields (i : Instr) : Instr.ofFields i.endian (BitVec.ofNat 3 i.len) i.offset = i := by
  cases i with
  | decX0 e _ | decX5 e _ | decX6 e _ | decX7 e _ => cases e <;> rfl
  | _ => rfl

/-- Every length and byte order names a request with that length, byte order and offset (30_encoding R50). -/
theorem Instr.ofFields_cases (e : Endian) (len : BitVec 3) (o : Nat) :
    (Instr.ofFields e len o).len = len.toNat ∧ (Instr.ofFields e len o).endian = e ∧
      (Instr.ofFields e len o).offset = o := by
  have h : ∀ l : BitVec 3, ∀ e : Endian, (Instr.ofFields e l o).len = l.toNat ∧
      (Instr.ofFields e l o).endian = e ∧ (Instr.ofFields e l o).offset = o := by
    intro l e
    obtain ⟨k⟩ := l
    fin_cases k <;> cases e <;> exact ⟨rfl, rfl, rfl⟩
  exact h len e

/-- The ports carry the word that is read from them. -/
theorem Ports.pack_toNat (addrW : Nat) (p : Ports) :
    (p.pack addrW).toNat = p.offset % 2 ^ addrW * 16 + p.endian.toNat * 8 + p.len.toNat := by
  have h : (p.endian ++ p.len : BitVec 4).toNat = p.endian.toNat * 8 + p.len.toNat := by
    rw [BitVec.toNat_append, ← Nat.shiftLeft_add_eq_or_of_lt p.len.isLt, Nat.shiftLeft_eq]
  unfold Ports.pack
  rw [append_nibble_toNat, h, BitVec.toNat_ofNat]
  omega

/-- The ports of a word carry that word (30_encoding R47). -/
@[simp] theorem Ports.pack_ofWord {addrW : Nat} (w : BitVec (addrW + 4)) : (Ports.ofWord w).pack addrW = w := by
  apply BitVec.eq_of_toNat_eq
  rw [Ports.pack_toNat]
  simp only [Ports.ofWord, lenField_toNat, endianField_toNat]
  rw [Nat.mod_eq_of_lt (offsetField_lt w), offsetField_eq]
  omega

@[simp] theorem Ports.wf_ofWord {addrW : Nat} (w : BitVec (addrW + 4)) : (Ports.ofWord w).wf addrW = true := by
  exact decide_eq_true (offsetField_lt w)

end Sys2Proof
end

