-- ==== Sys2Proof/Laws/Memory.lean ====
section
/-! SUPPORT. The laws of the byte buffer: a byte reads as last written, other bytes are left alone, every operation
keeps the canonical form, and a canonical buffer is determined by what its addresses read as. -/

namespace Sys2Proof.Machine

@[simp] theorem Memory.read_nil (a : Nat) : Memory.read [] a = Config.unlistedByte := rfl

theorem Memory.read_cons (c : Host.Cell) (m : Memory) (a : Nat) :
    Memory.read (c :: m) a = if c.1 = a then c.2 else Memory.read m a := rfl

/-- A byte below every listed address is unlisted. -/
theorem Memory.read_of_lt_all {m : Memory} {a : Nat} (h : ∀ c ∈ m, a < c.1) :
    Memory.read m a = Config.unlistedByte := by
  induction m with
  | nil => rfl
  | cons c m ih =>
    have hc := h c (by simp)
    rw [Memory.read_cons, if_neg (by omega), ih fun d hd => h d (by simp [hd])]

/-- The tail of a canonical buffer is canonical, and its addresses lie above the head's. -/
theorem Memory.wf_cons {c : Host.Cell} {m : Memory} :
    Memory.wf (c :: m) ↔ Memory.wf m ∧ c.2 ≠ Config.unlistedByte ∧ ∀ d ∈ m, c.1 < d.1 := by
  constructor
  · rintro ⟨hp, hv⟩
    obtain ⟨hlt, hp'⟩ := List.pairwise_cons.mp hp
    exact ⟨⟨hp', fun d hd => hv d (by simp [hd])⟩, hv c (by simp), hlt⟩
  · rintro ⟨⟨hp, hv⟩, hc, hlt⟩
    refine ⟨List.pairwise_cons.mpr ⟨hlt, hp⟩, fun d hd => ?_⟩
    rcases List.mem_cons.mp hd with rfl | hd
    · exact hc
    · exact hv d hd

theorem Memory.wf_nil : Memory.wf [] := ⟨List.Pairwise.nil, by simp⟩

/-- A cell of the buffer after a write is the cell written or was there before. -/
theorem Memory.mem_write {m : Memory} {a : Nat} {v : Byte} {c : Host.Cell} (h : c ∈ m.write a v) :
    (c = (a, v) ∧ v ≠ Config.unlistedByte) ∨ c ∈ m := by
  induction m with
  | nil =>
    simp only [Memory.write] at h
    split at h
    · simp at h
    · exact .inl ⟨by simpa using h, ‹_›⟩
  | cons d m ih =>
    simp only [Memory.write] at h
    split at h
    · split at h
      · exact .inr h
      · rcases List.mem_cons.mp h with h | h
        · exact .inl ⟨h, ‹_›⟩
        · exact .inr h
    · split at h
      · split at h
        · exact .inr (by simp [h])
        · rcases List.mem_cons.mp h with h | h
          · exact .inl ⟨h, ‹_›⟩
          · exact .inr (by simp [h])
      · rcases List.mem_cons.mp h with h | h
        · exact .inr (by simp [h])
        · rcases ih h with h | h
          · exact .inl h
          · exact .inr (by simp [h])

/-- A write keeps the canonical form. -/
theorem Memory.wf_write {m : Memory} (h : m.wf) (a : Nat) (v : Byte) : (m.write a v).wf := by
  induction m with
  | nil =>
    simp only [Memory.write]
    split
    · exact Memory.wf_nil
    · exact Memory.wf_cons.mpr ⟨Memory.wf_nil, ‹_›, by simp⟩
  | cons c m ih =>
    obtain ⟨hm, hc, hlt⟩ := Memory.wf_cons.mp h
    simp only [Memory.write]
    split
    · rename_i hac
      split
      · exact h
      · refine Memory.wf_cons.mpr ⟨h, ‹_›, fun d hd => ?_⟩
        rcases List.mem_cons.mp hd with rfl | hd
        · exact hac
        · exact Nat.lt_trans hac (hlt d hd)
    · split
      · rename_i hac
        split
        · exact hm
        · exact Memory.wf_cons.mpr ⟨hm, ‹_›, fun d hd => hac ▸ hlt d hd⟩
      · refine Memory.wf_cons.mpr ⟨ih hm, hc, fun d hd => ?_⟩
        rcases Memory.mem_write hd with ⟨rfl, -⟩ | hd
        · simp only; omega
        · exact hlt d hd

/-- Filling keeps the canonical form. -/
theorem Memory.wf_fill {m : Memory} (h : m.wf) (cells : List Host.Cell) : (m.fill cells).wf := by
  induction cells generalizing m with
  | nil => exact h
  | cons c cells ih => exact ih (Memory.wf_write h c.1 c.2)

/-- A cell of the buffer after a fill was filled in or was there before. -/
theorem Memory.mem_fill {m : Memory} {cells : List Host.Cell} {c : Host.Cell} (h : c ∈ m.fill cells) :
    c ∈ cells ∨ c ∈ m := by
  induction cells generalizing m with
  | nil => exact .inr h
  | cons d cells ih =>
    rcases ih h with h | h
    · exact .inl (by simp [h])
    · rcases Memory.mem_write h with ⟨h, -⟩ | h
      · exact .inl (by simp [h])
      · exact .inr h

/-- A byte reads as written. -/
theorem Memory.read_write_same {m : Memory} (h : m.wf) (a : Nat) (v : Byte) : (m.write a v).read a = v := by
  induction m with
  | nil =>
    simp only [Memory.write]
    split
    · simp [*]
    · simp [Memory.read_cons]
  | cons c m ih =>
    obtain ⟨hm, hc, hlt⟩ := Memory.wf_cons.mp h
    simp only [Memory.write]
    split
    · rename_i hac
      split
      · rename_i hv
        rw [hv]
        refine Memory.read_of_lt_all fun d hd => ?_
        rcases List.mem_cons.mp hd with rfl | hd
        · exact hac
        · exact Nat.lt_trans hac (hlt d hd)
      · simp [Memory.read_cons]
    · split
      · rename_i hac
        split
        · rename_i hv
          rw [hv]
          exact Memory.read_of_lt_all fun d hd => hac ▸ hlt d hd
        · simp [Memory.read_cons]
      · rw [Memory.read_cons, if_neg (by omega), ih hm]

/-- Every other byte is left alone by a write. -/
theorem Memory.read_write_other {m : Memory} {a b : Nat} (v : Byte) (hab : b ≠ a) :
    (m.write a v).read b = m.read b := by
  induction m with
  | nil =>
    simp only [Memory.write]
    split
    · rfl
    · simp [Memory.read_cons, Ne.symm hab]
  | cons c m ih =>
    simp only [Memory.write]
    split
    · split
      · rfl
      · rw [Memory.read_cons, if_neg (by simpa using Ne.symm hab)]
    · split
      · rename_i hac
        have hc : c.1 ≠ b := fun h => hab (by omega)
        split
        · rw [Memory.read_cons, if_neg hc]
        · rw [Memory.read_cons, if_neg (by simpa using Ne.symm hab), Memory.read_cons, if_neg hc]
      · rw [Memory.read_cons, Memory.read_cons, ih]

/-- The head address of a canonical buffer is listed. -/
theorem Memory.read_head {c : Host.Cell} {m : Memory} : Memory.read (c :: m) c.1 = c.2 := by
  simp [Memory.read_cons]

/-- Two canonical buffers that read alike at every address are the same list. -/
theorem Memory.ext_read {m m' : Memory} (h : m.wf) (h' : m'.wf) (hr : ∀ a, m.read a = m'.read a) : m = m' := by
  induction m generalizing m' with
  | nil =>
    cases m' with
    | nil => rfl
    | cons d m' => exact absurd (Memory.read_head ▸ (hr d.1).symm) (Memory.wf_cons.mp h').2.1
  | cons c m ih =>
    cases m' with
    | nil => exact absurd (Memory.read_head ▸ hr c.1) (Memory.wf_cons.mp h).2.1
    | cons d m' =>
      obtain ⟨hm, hc, hlt⟩ := Memory.wf_cons.mp h
      obtain ⟨hm', hd, hlt'⟩ := Memory.wf_cons.mp h'
      have key : c.1 = d.1 := by
        rcases Nat.lt_trichotomy c.1 d.1 with hcd | hcd | hcd
        · refine absurd ?_ hc
          rw [← Memory.read_head (c := c) (m := m), hr]
          refine Memory.read_of_lt_all fun e he => ?_
          rcases List.mem_cons.mp he with rfl | he
          · exact hcd
          · exact Nat.lt_trans hcd (hlt' e he)
        · exact hcd
        · refine absurd ?_ hd
          rw [← Memory.read_head (c := d) (m := m'), ← hr]
          refine Memory.read_of_lt_all fun e he => ?_
          rcases List.mem_cons.mp he with rfl | he
          · exact hcd
          · exact Nat.lt_trans hcd (hlt e he)
      have hv : c.2 = d.2 := by
        have := hr c.1
        rw [Memory.read_head, key, Memory.read_head] at this
        exact this
      have hcd : c = d := Prod.ext key hv
      subst hcd
      have ht : m = m' := by
        refine ih hm hm' fun a => ?_
        by_cases hac : c.1 = a
        · subst hac
          rw [Memory.read_of_lt_all hlt, Memory.read_of_lt_all hlt']
        · have := hr a
          rwa [Memory.read_cons, Memory.read_cons, if_neg hac, if_neg hac] at this
      rw [ht]

/-- Writing what an address reads as changes nothing. -/
theorem Memory.write_read_self {m : Memory} (h : m.wf) (a : Nat) : m.write a (m.read a) = m := by
  refine Memory.ext_read (Memory.wf_write h _ _) h fun b => ?_
  by_cases hb : b = a
  · rw [hb, Memory.read_write_same h]
  · exact Memory.read_write_other _ hb

end Sys2Proof.Machine
end

