-- ==== Sys2Proof/Laws/State.lean ====
section
/-! SUPPORT. What each named operation leaves in each field of State, so that no proof unfolds a record update. -/

namespace Sys2Proof.Machine

@[simp] theorem State.memRead_fst (s : State) (a : Nat) : (s.memRead a).1 = s.buf.read a := rfl

@[simp] theorem State.memRead_snd_respValid (s : State) (a : Nat) : (s.memRead a).2.respValid = s.respValid := rfl
@[simp] theorem State.memRead_snd_respData (s : State) (a : Nat) : (s.memRead a).2.respData = s.respData := rfl
@[simp] theorem State.memRead_snd_respStatus (s : State) (a : Nat) : (s.memRead a).2.respStatus = s.respStatus := rfl
@[simp] theorem State.memRead_snd_stickyErr (s : State) (a : Nat) : (s.memRead a).2.stickyErr = s.stickyErr := rfl
@[simp] theorem State.memRead_snd_addrW (s : State) (a : Nat) : (s.memRead a).2.addrW = s.addrW := rfl
@[simp] theorem State.memRead_snd_buf (s : State) (a : Nat) : (s.memRead a).2.buf = s.buf := rfl
@[simp] theorem State.memRead_snd_bound (s : State) (a : Nat) : (s.memRead a).2.bound = s.bound := rfl
@[simp] theorem State.memRead_snd_inputs (s : State) (a : Nat) : (s.memRead a).2.inputs = s.inputs := rfl
@[simp] theorem State.memRead_snd_reads (s : State) (a : Nat) : (s.memRead a).2.reads = insertAddr a s.reads := rfl

@[simp] theorem State.beginEdge_respValid (s : State) : s.beginEdge.respValid = s.respValid := rfl
@[simp] theorem State.beginEdge_respData (s : State) : s.beginEdge.respData = s.respData := rfl
@[simp] theorem State.beginEdge_respStatus (s : State) : s.beginEdge.respStatus = s.respStatus := rfl
@[simp] theorem State.beginEdge_stickyErr (s : State) : s.beginEdge.stickyErr = s.stickyErr := rfl
@[simp] theorem State.beginEdge_addrW (s : State) : s.beginEdge.addrW = s.addrW := rfl
@[simp] theorem State.beginEdge_buf (s : State) : s.beginEdge.buf = s.buf := rfl
@[simp] theorem State.beginEdge_bound (s : State) : s.beginEdge.bound = s.bound := rfl
@[simp] theorem State.beginEdge_inputs (s : State) : s.beginEdge.inputs = s.inputs := rfl
@[simp] theorem State.beginEdge_reads (s : State) : s.beginEdge.reads = [] := rfl

@[simp] theorem State.respond_respValid (s : State) (c : BitVec 2) (d : Word) : (s.respond c d).respValid = true := rfl
@[simp] theorem State.respond_respData (s : State) (c : BitVec 2) (d : Word) : (s.respond c d).respData = d := rfl
@[simp] theorem State.respond_respStatus (s : State) (c : BitVec 2) (d : Word) : (s.respond c d).respStatus = c := rfl
@[simp] theorem State.respond_stickyErr (s : State) (c : BitVec 2) (d : Word) : (s.respond c d).stickyErr = s.stickyErr := rfl
@[simp] theorem State.respond_addrW (s : State) (c : BitVec 2) (d : Word) : (s.respond c d).addrW = s.addrW := rfl
@[simp] theorem State.respond_buf (s : State) (c : BitVec 2) (d : Word) : (s.respond c d).buf = s.buf := rfl
@[simp] theorem State.respond_bound (s : State) (c : BitVec 2) (d : Word) : (s.respond c d).bound = s.bound := rfl
@[simp] theorem State.respond_inputs (s : State) (c : BitVec 2) (d : Word) : (s.respond c d).inputs = s.inputs := rfl
@[simp] theorem State.respond_reads (s : State) (c : BitVec 2) (d : Word) : (s.respond c d).reads = s.reads := rfl

@[simp] theorem State.setSticky_respValid (s : State) : s.setSticky.respValid = s.respValid := rfl
@[simp] theorem State.setSticky_respData (s : State) : s.setSticky.respData = s.respData := rfl
@[simp] theorem State.setSticky_respStatus (s : State) : s.setSticky.respStatus = s.respStatus := rfl
@[simp] theorem State.setSticky_stickyErr (s : State) : s.setSticky.stickyErr = true := rfl
@[simp] theorem State.setSticky_addrW (s : State) : s.setSticky.addrW = s.addrW := rfl
@[simp] theorem State.setSticky_buf (s : State) : s.setSticky.buf = s.buf := rfl
@[simp] theorem State.setSticky_bound (s : State) : s.setSticky.bound = s.bound := rfl
@[simp] theorem State.setSticky_inputs (s : State) : s.setSticky.inputs = s.inputs := rfl
@[simp] theorem State.setSticky_reads (s : State) : s.setSticky.reads = s.reads := rfl

@[simp] theorem State.clearSticky_respValid (s : State) : s.clearSticky.respValid = s.respValid := rfl
@[simp] theorem State.clearSticky_respData (s : State) : s.clearSticky.respData = s.respData := rfl
@[simp] theorem State.clearSticky_respStatus (s : State) : s.clearSticky.respStatus = s.respStatus := rfl
@[simp] theorem State.clearSticky_stickyErr (s : State) : s.clearSticky.stickyErr = false := rfl
@[simp] theorem State.clearSticky_addrW (s : State) : s.clearSticky.addrW = s.addrW := rfl
@[simp] theorem State.clearSticky_buf (s : State) : s.clearSticky.buf = s.buf := rfl
@[simp] theorem State.clearSticky_bound (s : State) : s.clearSticky.bound = s.bound := rfl
@[simp] theorem State.clearSticky_inputs (s : State) : s.clearSticky.inputs = s.inputs := rfl
@[simp] theorem State.clearSticky_reads (s : State) : s.clearSticky.reads = s.reads := rfl

@[simp] theorem State.raise_respValid (s : State) (e : ErrorCause) (d : Word) : (s.raise e d).respValid = true := rfl
@[simp] theorem State.raise_respData (s : State) (e : ErrorCause) (d : Word) : (s.raise e d).respData = d := rfl
@[simp] theorem State.raise_respStatus (s : State) (e : ErrorCause) (d : Word) : (s.raise e d).respStatus = e.code := rfl
@[simp] theorem State.raise_stickyErr (s : State) (e : ErrorCause) (d : Word) : (s.raise e d).stickyErr = true := rfl
@[simp] theorem State.raise_addrW (s : State) (e : ErrorCause) (d : Word) : (s.raise e d).addrW = s.addrW := rfl
@[simp] theorem State.raise_buf (s : State) (e : ErrorCause) (d : Word) : (s.raise e d).buf = s.buf := rfl
@[simp] theorem State.raise_bound (s : State) (e : ErrorCause) (d : Word) : (s.raise e d).bound = s.bound := rfl
@[simp] theorem State.raise_inputs (s : State) (e : ErrorCause) (d : Word) : (s.raise e d).inputs = s.inputs := rfl
@[simp] theorem State.raise_reads (s : State) (e : ErrorCause) (d : Word) : (s.raise e d).reads = s.reads := rfl

@[simp] theorem State.idleEdge_respValid (s : State) : s.idleEdge.respValid = false := rfl
@[simp] theorem State.idleEdge_respData (s : State) : s.idleEdge.respData = s.respData := rfl
@[simp] theorem State.idleEdge_respStatus (s : State) : s.idleEdge.respStatus = s.respStatus := rfl
@[simp] theorem State.idleEdge_stickyErr (s : State) : s.idleEdge.stickyErr = s.stickyErr := rfl
@[simp] theorem State.idleEdge_addrW (s : State) : s.idleEdge.addrW = s.addrW := rfl
@[simp] theorem State.idleEdge_buf (s : State) : s.idleEdge.buf = s.buf := rfl
@[simp] theorem State.idleEdge_bound (s : State) : s.idleEdge.bound = s.bound := rfl
@[simp] theorem State.idleEdge_inputs (s : State) : s.idleEdge.inputs = s.inputs := rfl
@[simp] theorem State.idleEdge_reads (s : State) : s.idleEdge.reads = [] := rfl

@[simp] theorem State.resetEdge_respValid (s : State) : s.resetEdge.respValid = false := rfl
@[simp] theorem State.resetEdge_respData (s : State) : s.resetEdge.respData = 0x00000000#32 := rfl
@[simp] theorem State.resetEdge_respStatus (s : State) : s.resetEdge.respStatus = statusOk := rfl
@[simp] theorem State.resetEdge_stickyErr (s : State) : s.resetEdge.stickyErr = false := rfl
@[simp] theorem State.resetEdge_addrW (s : State) : s.resetEdge.addrW = s.addrW := rfl
@[simp] theorem State.resetEdge_buf (s : State) : s.resetEdge.buf = s.buf := rfl
@[simp] theorem State.resetEdge_bound (s : State) : s.resetEdge.bound = s.bound := rfl
@[simp] theorem State.resetEdge_inputs (s : State) : s.resetEdge.inputs = s.inputs := rfl
@[simp] theorem State.resetEdge_reads (s : State) : s.resetEdge.reads = [] := rfl

@[simp] theorem State.applyChange_respValid (s : State) (c : Change) : (s.applyChange c).respValid = s.respValid := rfl
@[simp] theorem State.applyChange_respData (s : State) (c : Change) : (s.applyChange c).respData = s.respData := rfl
@[simp] theorem State.applyChange_respStatus (s : State) (c : Change) : (s.applyChange c).respStatus = s.respStatus := rfl
@[simp] theorem State.applyChange_stickyErr (s : State) (c : Change) : (s.applyChange c).stickyErr = s.stickyErr := rfl
@[simp] theorem State.applyChange_addrW (s : State) (c : Change) : (s.applyChange c).addrW = s.addrW := rfl
@[simp] theorem State.applyChange_buf (s : State) (c : Change) : (s.applyChange c).buf = s.buf.fill c.fill := rfl
@[simp] theorem State.applyChange_bound (s : State) (c : Change) : (s.applyChange c).bound = c.bound.getD s.bound := rfl
@[simp] theorem State.applyChange_inputs (s : State) (c : Change) : (s.applyChange c).inputs = s.inputs := rfl
@[simp] theorem State.applyChange_reads (s : State) (c : Change) : (s.applyChange c).reads = s.reads := rfl

@[simp] theorem State.present_respValid (s : State) (w : BitVec (s.addrW + 4)) : (s.present w).respValid = s.respValid := rfl
@[simp] theorem State.present_respData (s : State) (w : BitVec (s.addrW + 4)) : (s.present w).respData = s.respData := rfl
@[simp] theorem State.present_respStatus (s : State) (w : BitVec (s.addrW + 4)) : (s.present w).respStatus = s.respStatus := rfl
@[simp] theorem State.present_stickyErr (s : State) (w : BitVec (s.addrW + 4)) : (s.present w).stickyErr = s.stickyErr := rfl
@[simp] theorem State.present_addrW (s : State) (w : BitVec (s.addrW + 4)) : (s.present w).addrW = s.addrW := rfl
@[simp] theorem State.present_buf (s : State) (w : BitVec (s.addrW + 4)) : (s.present w).buf = s.buf := rfl
@[simp] theorem State.present_bound (s : State) (w : BitVec (s.addrW + 4)) : (s.present w).bound = s.bound := rfl
@[simp] theorem State.present_inputs (s : State) (w : BitVec (s.addrW + 4)) : (s.present w).inputs = .request false (Ports.ofWord w) :: s.inputs := rfl
@[simp] theorem State.present_reads (s : State) (w : BitVec (s.addrW + 4)) : (s.present w).reads = s.reads := rfl

@[simp] theorem State.beginEdge_effectiveBound (s : State) : s.beginEdge.effectiveBound = s.effectiveBound := rfl
@[simp] theorem State.memRead_snd_effectiveBound (s : State) (a : Nat) :
    (s.memRead a).2.effectiveBound = s.effectiveBound := rfl

/-- What a change of the inputs list alone leaves. -/
@[simp] theorem State.with_inputs_effectiveBound (s : State) (l : List ClockCycle) :
    State.effectiveBound { s with inputs := l } = s.effectiveBound := rfl

@[simp] theorem ErrorCause.code_ne_ok (e : ErrorCause) : e.code ≠ statusOk := by cases e <;> decide
@[simp] theorem ErrorCause.code_ne_reserved (e : ErrorCause) : e.code ≠ statusReserved := by cases e <;> decide
@[simp] theorem statusOk_ne_reserved : statusOk ≠ statusReserved := by decide

end Sys2Proof.Machine
end

