-- ==== Sys2Proof/Laws/Operands.lean ====
section
/-! SUPPORT. What the byte loops of 40_decode R60 and R61 compute and read, and the three things the common step of
R59 can do. -/

namespace Sys2Proof.Machine

/-! ### The set of read addresses -/

/-- Adding an address above all others puts it last. -/
theorem insertAddr_above {a : Nat} {l : List Nat} (h : ∀ b ∈ l, b < a) : insertAddr a l = l ++ [a] := by
  induction l with
  | nil => rfl
  | cons b l ih =>
    have hb := h b (by simp)
    rw [insertAddr, if_neg (by omega), if_neg (by omega), ih fun c hc => h c (by simp [hc])]
    rfl

/-- Adding an address below the first puts it first. -/
theorem insertAddr_below {a b : Nat} {l : List Nat} (h : a < b) : insertAddr a (b :: l) = a :: b :: l := by
  rw [insertAddr, if_pos h]

/-- Reading a window upwards reads exactly its addresses. -/
theorem foldl_insertAddr_range (o n : Nat) :
    (List.range n).foldl (fun r i => insertAddr (o + i) r) [] = List.range' o n := by
  induction n with
  | zero => rfl
  | succ n ih =>
    rw [List.range_succ, List.foldl_append, ih, List.foldl_cons, List.foldl_nil, insertAddr_above, List.range'_1_concat]
    intro b hb
    have := List.mem_range'_1.mp hb
    omega

/-- Reading downwards, the addresses `o + n - 1` down to `o` come in front of those above them. -/
theorem foldl_insertAddr_range_reverse (o n k : Nat) :
    (List.range n).reverse.foldl (fun r i => insertAddr (o + i) r) (List.range' (o + n) k) = List.range' o (n + k) := by
  induction n generalizing k with
  | zero => simp
  | succ n ih =>
    have hstep : insertAddr (o + n) (List.range' (o + (n + 1)) k) = List.range' (o + n) (k + 1) := by
      cases k with
      | zero => rfl
      | succ k => rw [List.range'_succ, insertAddr_below (by omega), ← List.range'_succ, ← Nat.add_assoc,
          ← List.range'_succ]
    rw [List.range_succ, List.reverse_append, List.reverse_singleton, List.singleton_append, List.foldl_cons, hstep, ih]
    congr 1
    omega

/-! ### The value -/

/-- The value the loop accumulates from the bytes a buffer holds, whatever has been read before. -/
def Memory.accumulated (m : Memory) (o : Nat) (is : List Nat) : Word :=
  is.foldl (fun acc i => shiftIn acc (m.read (o + i))) 0x00000000#32

/-- What the loop answers: the accumulated bytes, and the addresses read; nothing else of the state changes. -/
theorem State.accumulate_eq (s : State) (o : Nat) (is : List Nat) :
    s.accumulate o is =
      (s.buf.accumulated o is, { s with reads := is.foldl (fun r i => insertAddr (o + i) r) s.reads }) := by
  unfold State.accumulate Memory.accumulated
  generalize 0x00000000#32 = acc
  induction is generalizing acc s with
  | nil => rfl
  | cons i is ih => exact ih (s.memRead (o + i)).2 (shiftIn acc (s.buf.read (o + i)))

/-- The loop order of a byte order (40_decode R60, R61). -/
def loopOrder (e : Endian) (n : Nat) : List Nat :=
  match e with
  | .little => (List.range n).reverse
  | .big => List.range n

/-- The value of a window of a buffer in a byte order. -/
def Memory.windowValue (m : Memory) (e : Endian) (o n : Nat) : Word := m.accumulated o (loopOrder e n)

/-- Decoding a window at the beginning of an edge: its value, and exactly its addresses read (20_memory R39). -/
theorem State.decodeWindow_beginEdge (s : State) (e : Endian) (o n : Nat) :
    s.beginEdge.decodeWindow e o n = (s.buf.windowValue e o n, { s with reads := List.range' o n }) := by
  cases e with
  | little =>
    simp only [State.decodeWindow, State.decodeLE, State.accumulate_eq, Memory.windowValue, loopOrder]
    have := foldl_insertAddr_range_reverse o n 0
    simp only [List.range'_zero, Nat.add_zero] at this
    simp only [State.beginEdge_reads, this]
    rfl
  | big =>
    simp only [State.decodeWindow, State.decodeBE, State.accumulate_eq, Memory.windowValue, loopOrder]
    simp only [State.beginEdge_reads, foldl_insertAddr_range]
    rfl

/-- The value depends on the bytes of the window alone. -/
theorem Memory.windowValue_congr {m m' : Memory} {o o' n : Nat} (e : Endian)
    (h : ∀ i < n, m.read (o + i) = m'.read (o' + i)) : m.windowValue e o n = m'.windowValue e o' n := by
  have key : ∀ (is : List Nat) (acc : Word), (∀ i ∈ is, m.read (o + i) = m'.read (o' + i)) →
      is.foldl (fun acc i => shiftIn acc (m.read (o + i))) acc =
        is.foldl (fun acc i => shiftIn acc (m'.read (o' + i))) acc := by
    intro is
    induction is with
    | nil => intro _ _; rfl
    | cons i is ih =>
      intro acc hi
      rw [List.foldl_cons, List.foldl_cons, hi i (by simp), ih _ fun j hj => hi j (by simp [hj])]
  cases e
  all_goals
    exact key _ _ fun i hi => h i (by simpa [loopOrder] using hi)

/-- A byte goes in below an accumulator of at most three bytes: nothing is lost, and it is not sign-extended
(40_decode R62, R63). -/
theorem shiftIn_toNat {acc : Word} (b : Byte) (h : acc.toNat < 2 ^ 24) :
    (shiftIn acc b).toNat = acc.toNat * 256 + b.toNat := by
  have hb : b.toNat < 2 ^ 8 := b.isLt
  have hmask : b &&& 0xFF#8 = b := BitVec.and_allOnes
  have hor : acc.toNat <<< 8 ||| b.toNat = acc.toNat * 256 + b.toNat := by
    rw [← Nat.shiftLeft_add_eq_or_of_lt hb, Nat.shiftLeft_eq]
  unfold shiftIn
  rw [hmask, BitVec.toNat_or, BitVec.toNat_shiftLeft, BitVec.toNat_setWidth, Nat.shiftLeft_eq,
    Nat.mod_eq_of_lt (by omega), Nat.mod_eq_of_lt (by omega), ← hor, Nat.shiftLeft_eq]

theorem shiftIn_one (a : Byte) : (shiftIn 0x00000000#32 a).toNat = a.toNat := by
  rw [shiftIn_toNat a (by decide)]
  simp

theorem shiftIn_two (a b : Byte) : (shiftIn (shiftIn 0x00000000#32 a) b).toNat = a.toNat * 256 + b.toNat := by
  have ha := a.isLt
  rw [shiftIn_toNat b (by rw [shiftIn_one]; omega), shiftIn_one]

theorem shiftIn_three (a b c : Byte) :
    (shiftIn (shiftIn (shiftIn 0x00000000#32 a) b) c).toNat = (a.toNat * 256 + b.toNat) * 256 + c.toNat := by
  have ha := a.isLt
  have hb := b.isLt
  rw [shiftIn_toNat c (by rw [shiftIn_two]; omega), shiftIn_two]

theorem shiftIn_four (a b c d : Byte) :
    (shiftIn (shiftIn (shiftIn (shiftIn 0x00000000#32 a) b) c) d).toNat =
      ((a.toNat * 256 + b.toNat) * 256 + c.toNat) * 256 + d.toNat := by
  have ha := a.isLt
  have hb := b.isLt
  have hc := c.isLt
  rw [shiftIn_toNat d (by rw [shiftIn_three]; omega), shiftIn_three]

/-- A window of at most four bytes, unrolled into its shifts, in either order. -/
theorem Memory.windowValue_unroll (m : Memory) (o : Nat) :
    m.windowValue .little o 1 = shiftIn 0x00000000#32 (m.read o) ∧
    m.windowValue .big o 1 = shiftIn 0x00000000#32 (m.read o) ∧
    m.windowValue .little o 2 = shiftIn (shiftIn 0x00000000#32 (m.read (o + 1))) (m.read o) ∧
    m.windowValue .big o 2 = shiftIn (shiftIn 0x00000000#32 (m.read o)) (m.read (o + 1)) ∧
    m.windowValue .little o 3 =
      shiftIn (shiftIn (shiftIn 0x00000000#32 (m.read (o + 2))) (m.read (o + 1))) (m.read o) ∧
    m.windowValue .big o 3 =
      shiftIn (shiftIn (shiftIn 0x00000000#32 (m.read o)) (m.read (o + 1))) (m.read (o + 2)) ∧
    m.windowValue .little o 4 =
      shiftIn (shiftIn (shiftIn (shiftIn 0x00000000#32 (m.read (o + 3))) (m.read (o + 2))) (m.read (o + 1)))
        (m.read o) ∧
    m.windowValue .big o 4 =
      shiftIn (shiftIn (shiftIn (shiftIn 0x00000000#32 (m.read o)) (m.read (o + 1))) (m.read (o + 2)))
        (m.read (o + 3)) :=
  ⟨rfl, rfl, rfl, rfl, rfl, rfl, rfl, rfl⟩

/-! ### The common step -/

/-- A request whose length is illegal: its answer is ELEN (60_exceptions R78). -/
theorem State.acceptRequest_elen (s : State) (e : Endian) {len : BitVec 3} (o : Nat)
    (h : len.toNat < 1 ∨ 4 < len.toNat) : s.acceptRequest e len o = s.beginEdge.raise .elen 0x00000000#32 := by
  rw [State.acceptRequest, if_pos h]

/-- A request of legal length whose window passes the bound: its answer is EBOUND (60_exceptions R79). -/
theorem State.acceptRequest_ebound (s : State) (e : Endian) {len : BitVec 3} {o : Nat}
    (h : ¬(len.toNat < 1 ∨ 4 < len.toNat)) (hb : s.effectiveBound < o + len.toNat) :
    s.acceptRequest e len o = s.beginEdge.raise .ebound 0x00000000#32 := by
  rw [State.acceptRequest, if_neg h, if_pos hb]

/-- A request of legal length whose window fits: its answer is the window's value, and exactly the window is read
(40_decode R59, 20_memory R39). -/
theorem State.acceptRequest_ok (s : State) (e : Endian) {len : BitVec 3} {o : Nat}
    (h : ¬(len.toNat < 1 ∨ 4 < len.toNat)) (hb : ¬s.effectiveBound < o + len.toNat) :
    s.acceptRequest e len o =
      { s with respValid := true, respData := s.buf.windowValue e o len.toNat, respStatus := statusOk,
               reads := List.range' o len.toNat } := by
  rw [State.acceptRequest, if_neg h, if_neg hb, State.decodeWindow_beginEdge]
  rfl

/-- Everything an accepted request can do (40_decode R59). -/
theorem State.acceptRequest_cases (s : State) (e : Endian) (len : BitVec 3) (o : Nat) :
    ((len.toNat < 1 ∨ 4 < len.toNat) ∧ s.acceptRequest e len o = s.beginEdge.raise .elen 0x00000000#32) ∨
    ((1 ≤ len.toNat ∧ len.toNat ≤ 4) ∧ s.effectiveBound < o + len.toNat ∧
      s.acceptRequest e len o = s.beginEdge.raise .ebound 0x00000000#32) ∨
    ((1 ≤ len.toNat ∧ len.toNat ≤ 4) ∧ o + len.toNat ≤ s.effectiveBound ∧
      s.acceptRequest e len o =
        { s with respValid := true, respData := s.buf.windowValue e o len.toNat, respStatus := statusOk,
                 reads := List.range' o len.toNat }) := by
  by_cases h : len.toNat < 1 ∨ 4 < len.toNat
  · exact .inl ⟨h, s.acceptRequest_elen e o h⟩
  · by_cases hb : s.effectiveBound < o + len.toNat
    · exact .inr (.inl ⟨by omega, hb, s.acceptRequest_ebound e h hb⟩)
    · exact .inr (.inr ⟨by omega, by omega, s.acceptRequest_ok e h hb⟩)

/-- An accepted request changes nothing of the inputs and the parameter (10_state R28, 20_memory R38), and always
answers (10_state R18, 60_exceptions R84). -/
@[simp] theorem State.acceptRequest_buf (s : State) (e : Endian) (len : BitVec 3) (o : Nat) :
    (s.acceptRequest e len o).buf = s.buf := by
  obtain ⟨-, h⟩ | ⟨-, -, h⟩ | ⟨-, -, h⟩ := s.acceptRequest_cases e len o <;> simp [h]

@[simp] theorem State.acceptRequest_bound (s : State) (e : Endian) (len : BitVec 3) (o : Nat) :
    (s.acceptRequest e len o).bound = s.bound := by
  obtain ⟨-, h⟩ | ⟨-, -, h⟩ | ⟨-, -, h⟩ := s.acceptRequest_cases e len o <;> simp [h]

@[simp] theorem State.acceptRequest_addrW (s : State) (e : Endian) (len : BitVec 3) (o : Nat) :
    (s.acceptRequest e len o).addrW = s.addrW := by
  obtain ⟨-, h⟩ | ⟨-, -, h⟩ | ⟨-, -, h⟩ := s.acceptRequest_cases e len o <;> simp [h]

@[simp] theorem State.acceptRequest_inputs (s : State) (e : Endian) (len : BitVec 3) (o : Nat) :
    (s.acceptRequest e len o).inputs = s.inputs := by
  obtain ⟨-, h⟩ | ⟨-, -, h⟩ | ⟨-, -, h⟩ := s.acceptRequest_cases e len o <;> simp [h]

@[simp] theorem State.acceptRequest_respValid (s : State) (e : Endian) (len : BitVec 3) (o : Nat) :
    (s.acceptRequest e len o).respValid = true := by
  obtain ⟨-, h⟩ | ⟨-, -, h⟩ | ⟨-, -, h⟩ := s.acceptRequest_cases e len o <;> simp [h]

end Sys2Proof.Machine
end

