-- ==== Sys2Proof/Laws/PerInstr.lean ====
section
/-! SUPPORT. The family PackedValue: the number a well-formed request's packed word stands for, constructor by
constructor (30_encoding R47, R50). -/

namespace Sys2Proof.Laws.PackedValue

/-- The packed word holds the offset above the byte order above the length, at every `ADDR_W`. -/
def Statement (i : Instr) : Prop :=
  ∀ addrW, i.wf addrW = true → (encode addrW i).toNat = i.offset * 16 + i.endian.bit.toNat * 8 + i.len

/-- The offset of a well-formed request fits its field, and the nibble holds the rest. -/
theorem of_nibble (i : Instr) : Statement i := by
  intro addrW h
  have ho : i.offset < 2 ^ addrW := of_decide_eq_true h
  rw [encode, append_nibble_toNat, BitVec.toNat_ofNat, Nat.mod_eq_of_lt ho, Instr.nibble_toNat]
  omega

theorem decLe1 (offset : Nat) : Statement (.decLe1 offset) := of_nibble _
theorem decLe2 (offset : Nat) : Statement (.decLe2 offset) := of_nibble _
theorem decLe3 (offset : Nat) : Statement (.decLe3 offset) := of_nibble _
theorem decLe4 (offset : Nat) : Statement (.decLe4 offset) := of_nibble _
theorem decBe1 (offset : Nat) : Statement (.decBe1 offset) := of_nibble _
theorem decBe2 (offset : Nat) : Statement (.decBe2 offset) := of_nibble _
theorem decBe3 (offset : Nat) : Statement (.decBe3 offset) := of_nibble _
theorem decBe4 (offset : Nat) : Statement (.decBe4 offset) := of_nibble _
theorem decX0 (endian : Endian) (offset : Nat) : Statement (.decX0 endian offset) := of_nibble _
theorem decX5 (endian : Endian) (offset : Nat) : Statement (.decX5 endian offset) := of_nibble _
theorem decX6 (endian : Endian) (offset : Nat) : Statement (.decX6 endian offset) := of_nibble _
theorem decX7 (endian : Endian) (offset : Nat) : Statement (.decX7 endian offset) := of_nibble _

end Sys2Proof.Laws.PackedValue
end

