-- ==== Sys2Proof/Laws/Step.lean ====
section
/-! SUPPORT. What a request and a step can do, said once: every request is the common step of 40_decode R59, and a
step is one of five things. -/

namespace Sys2Proof.Machine

/-- Every request performs the common step with its own byte order and length (40_decode R59). -/
theorem exec_eq_acceptRequest (i : Instr) (s : State) :
    exec i s = .next (s.acceptRequest i.endian (BitVec.ofNat 3 i.len) i.offset) := by
  cases i <;> rfl

@[simp] theorem lenBits_toNat (i : Instr) : (BitVec.ofNat 3 i.len).toNat = i.len := by
  rw [BitVec.toNat_ofNat, Nat.mod_eq_of_lt i.len_lt]

/-- A request of illegal length: its answer is ELEN (60_exceptions R78). -/
theorem exec_elen {i : Instr} (s : State) (h : i.len < 1 ∨ 4 < i.len) :
    exec i s = .next (s.beginEdge.raise .elen 0x00000000#32) := by
  rw [exec_eq_acceptRequest, State.acceptRequest_elen _ _ _ (by rwa [lenBits_toNat])]

/-- A request of legal length whose window passes the bound: its answer is EBOUND (60_exceptions R79). -/
theorem exec_ebound {i : Instr} {s : State} (h : 1 ≤ i.len ∧ i.len ≤ 4) (hb : s.effectiveBound < i.offset + i.len) :
    exec i s = .next (s.beginEdge.raise .ebound 0x00000000#32) := by
  rw [exec_eq_acceptRequest,
    State.acceptRequest_ebound _ _ (by rw [lenBits_toNat]; omega) (by rwa [lenBits_toNat])]

/-- A request of legal length whose window fits: its answer is the window's value (40_decode R59). -/
theorem exec_ok {i : Instr} {s : State} (h : 1 ≤ i.len ∧ i.len ≤ 4) (hb : i.offset + i.len ≤ s.effectiveBound) :
    exec i s =
      .next { s with respValid := true, respData := s.buf.windowValue i.endian i.offset i.len, respStatus := statusOk,
                     reads := List.range' i.offset i.len } := by
  rw [exec_eq_acceptRequest,
    State.acceptRequest_ok _ _ (by rw [lenBits_toNat]; omega) (by rw [lenBits_toNat]; omega), lenBits_toNat]

/-- Everything a request can do: the illegal length, the window past the bound, the value. -/
theorem exec_cases {i : Instr} {s t : State} (h : exec i s = .next t) :
    ((i.len < 1 ∨ 4 < i.len) ∧ t = s.beginEdge.raise .elen 0x00000000#32) ∨
    ((1 ≤ i.len ∧ i.len ≤ 4) ∧ s.effectiveBound < i.offset + i.len ∧
      t = s.beginEdge.raise .ebound 0x00000000#32) ∨
    ((1 ≤ i.len ∧ i.len ≤ 4) ∧ i.offset + i.len ≤ s.effectiveBound ∧
      t = { s with respValid := true, respData := s.buf.windowValue i.endian i.offset i.len, respStatus := statusOk,
                   reads := List.range' i.offset i.len }) := by
  rw [exec_eq_acceptRequest] at h
  have h := Host.Outcome.next.inj h
  have key := s.acceptRequest_cases i.endian (BitVec.ofNat 3 i.len) i.offset
  simp only [lenBits_toNat, h] at key
  exact key

/-- The edge of a cycle with `rst = 1` is the reset edge, with the environment's change made. -/
theorem clockEdge_rst (s : State) {c : ClockCycle} (h : c.rst = true) :
    s.clockEdge c =
      .next (match c with
        | .request _ _ => s
        | .quiet _ _ ch => s.applyChange ch).resetEdge := by
  cases c <;> simp only [ClockCycle.rst] at h <;> subst h <;> rfl

/-- Everything a step that goes on can do. -/
theorem step_cases {s t : State} (h : step s = .next t) :
    (s.inputs = [] ∧ t = s.idleEdge) ∨
    (∃ p rest, s.inputs = .request true p :: rest ∧ p.wf s.addrW = true ∧
      t = State.resetEdge { s with inputs := rest }) ∨
    (∃ p rest, s.inputs = .request false p :: rest ∧ p.wf s.addrW = true ∧
      exec (s.sampled p) { s with inputs := rest } = .next t) ∨
    (∃ p ch rest, s.inputs = .quiet true p ch :: rest ∧ p.wf s.addrW = true ∧ ch.wf s.addrW = true ∧
      t = (State.applyChange { s with inputs := rest } ch).resetEdge) ∨
    (∃ p ch rest, s.inputs = .quiet false p ch :: rest ∧ p.wf s.addrW = true ∧ ch.wf s.addrW = true ∧
      t = (State.applyChange { s with inputs := rest } ch).idleEdge) := by
  unfold step State.nextEdge at h
  split at h
  · rename_i hi
    exact .inl ⟨hi, (Host.Outcome.next.inj h).symm⟩
  · rename_i c rest hi
    split at h
    · rename_i hwf
      match c with
      | .request true p => exact .inr (.inl ⟨p, rest, hi, hwf, (Host.Outcome.next.inj h).symm⟩)
      | .request false p => exact .inr (.inr (.inl ⟨p, rest, hi, hwf, h⟩))
      | .quiet true p ch =>
        simp only [ClockCycle.wf, Bool.and_eq_true] at hwf
        exact .inr (.inr (.inr (.inl ⟨p, ch, rest, hi, hwf.1, hwf.2, (Host.Outcome.next.inj h).symm⟩)))
      | .quiet false p ch =>
        simp only [ClockCycle.wf, Bool.and_eq_true] at hwf
        exact .inr (.inr (.inr (.inr ⟨p, ch, rest, hi, hwf.1, hwf.2, (Host.Outcome.next.inj h).symm⟩)))
    · cases h

/-- A request keeps what it does not own: the buffer, the bound, the parameter and the cycles to come. -/
theorem exec_keeps_inputs {i : Instr} {s t : State} (h : exec i s = .next t) :
    t.buf = s.buf ∧ t.bound = s.bound ∧ t.addrW = s.addrW ∧ t.inputs = s.inputs := by
  rw [exec_eq_acceptRequest] at h
  rw [← Host.Outcome.next.inj h]
  simp

/-- A buffer whose cells lie in the address space keeps them there when a drivable change is made. -/
theorem fill_in_space {addrW : Nat} {m : Memory} {ch : Change} (hch : ch.wf addrW = true)
    (h : ∀ c ∈ m, c.1 < 2 ^ addrW) : ∀ c ∈ m.fill ch.fill, c.1 < 2 ^ addrW := by
  intro c hc
  simp only [Change.wf, Bool.and_eq_true, List.all_eq_true, decide_eq_true_eq] at hch
  rcases Memory.mem_fill hc with hc | hc
  · exact hch.1 c hc
  · exact h c hc

end Sys2Proof.Machine
end

