-- ==== Sys2Proof/Tests/Slice0.lean ====
section
/-! SUPPORT. Tests on one step each, their expected values taken from spec/95_test_vectors.md, and the witnesses: for
every statement with hypotheses, a concrete state and operands that meet them. -/

namespace Sys2Proof.Tests

open Sys2Proof.Machine Sys2Proof.Says

/-! ### Helpers -/

/-- The cells that hold a list of bytes from an address on. -/
def cellsFrom (o : Nat) (bs : List Byte) : List Host.Cell := bs.mapIdx fun i b => (o + i, b)

/-- A block after reset over a buffer that holds the bytes from address 0, with a bound. -/
def block (bs : List Byte) (bound : Nat) : State :=
  { State.reset with buf := Memory.fill [] (cellsFrom 0 bs), bound := bound }

/-- The response and the sticky flag of an outcome. -/
def response : Host.Outcome State Fault Refusal → Option (Bool × Word × BitVec 2 × Bool)
  | .next s => some (s.respValid, s.respData, s.respStatus, s.stickyErr)
  | _ => none

/-- What one step answers when a packed word is presented. -/
def answerTo (s : State) (w : Nat) : Option (Bool × Word × BitVec 2 × Bool) := response (step (s.withFetchWord 32 w))

/-- A successful response, with the sticky flag clear. -/
def ok (d : Word) : Option (Bool × Word × BitVec 2 × Bool) := some (true, d, 0b00#2, false)
/-- An ELEN response. -/
def elen : Option (Bool × Word × BitVec 2 × Bool) := some (true, 0x00000000#32, 0b01#2, true)
/-- An EBOUND response. -/
def ebound : Option (Bool × Word × BitVec 2 × Bool) := some (true, 0x00000000#32, 0b10#2, true)

def patternA : State := block [0x12#8, 0x34#8, 0x56#8, 0x78#8] 4
def patternB : State := block [0xFF#8, 0xFF#8, 0xFF#8, 0xFF#8] 4
def patternC : State := block [0x80#8, 0x00#8, 0x00#8, 0x01#8] 4
def patternD : State := block [0x00#8, 0x00#8, 0x00#8, 0x00#8] 4
/-- 95_test_vectors 2.2. -/
def misaligned : State := block [0xEE#8, 0xEE#8, 0xEE#8, 0x01#8, 0x02#8, 0x03#8, 0x04#8, 0xEE#8] 8
/-- 95_test_vectors 2.3. -/
def eight : State := block [0xA0#8, 0xA1#8, 0xA2#8, 0xA3#8, 0xA4#8, 0xA5#8, 0xA6#8, 0xA7#8] 8
/-- The top of the address space, 95_test_vectors 2.3, with a bound. -/
def top (bound : Nat) : State :=
  { State.reset with buf := Memory.fill [] (cellsFrom 0x0FFFFFFC [0xC1#8, 0xC2#8, 0xC3#8, 0xC4#8]), bound := bound }

/-- A bound of exactly the address space. -/
def topFull : State := top 268435456
/-- A bound above it. -/
def topOver : State := top 268435461

def somePorts : Ports := ⟨2#3, 1#1, 3⟩
def noChange : Change := ⟨[], none⟩

/-! ### Values: 95_test_vectors 2.1 (patterns A to D), 2.2 (misaligned) and 2.3 (bounds) -/

theorem test_decLe1_values :
    answerTo patternA 0x00000001 = ok 0x00000012#32 ∧
    answerTo patternB 0x00000001 = ok 0x000000FF#32 ∧
    answerTo patternC 0x00000001 = ok 0x00000080#32 ∧
    answerTo patternD 0x00000001 = ok 0x00000000#32 := by
  decide

theorem test_decLe1_windows :
    answerTo misaligned 0x00000031 = ok 0x00000001#32 ∧
    answerTo topFull 0xFFFFFFF1 = ok 0x000000C4#32 ∧
    answerTo eight 0x00000081 = ebound ∧
    answerTo topOver 0xFFFFFFF1 = ok 0x000000C4#32 := by
  decide

theorem test_decLe2_values :
    answerTo patternA 0x00000002 = ok 0x00003412#32 ∧
    answerTo patternB 0x00000002 = ok 0x0000FFFF#32 ∧
    answerTo patternC 0x00000002 = ok 0x00000080#32 ∧
    answerTo patternD 0x00000002 = ok 0x00000000#32 := by
  decide

theorem test_decLe2_windows :
    answerTo misaligned 0x00000032 = ok 0x00000201#32 ∧
    answerTo topOver 0xFFFFFFF2 = ebound := by
  decide

theorem test_decLe3_values :
    answerTo patternA 0x00000003 = ok 0x00563412#32 ∧
    answerTo patternB 0x00000003 = ok 0x00FFFFFF#32 ∧
    answerTo patternC 0x00000003 = ok 0x00000080#32 ∧
    answerTo patternD 0x00000003 = ok 0x00000000#32 := by
  decide

theorem test_decLe3_windows :
    answerTo misaligned 0x00000033 = ok 0x00030201#32 := by
  decide

theorem test_decLe4_values :
    answerTo patternA 0x00000004 = ok 0x78563412#32 ∧
    answerTo patternB 0x00000004 = ok 0xFFFFFFFF#32 ∧
    answerTo patternC 0x00000004 = ok 0x01000080#32 ∧
    answerTo patternD 0x00000004 = ok 0x00000000#32 := by
  decide

theorem test_decLe4_windows :
    answerTo misaligned 0x00000034 = ok 0x04030201#32 ∧
    answerTo eight 0x00000044 = ok 0xA7A6A5A4#32 ∧
    answerTo eight 0x00000054 = ebound := by
  decide

theorem test_decBe1_values :
    answerTo patternA 0x00000009 = ok 0x00000012#32 ∧
    answerTo patternB 0x00000009 = ok 0x000000FF#32 ∧
    answerTo patternC 0x00000009 = ok 0x00000080#32 ∧
    answerTo patternD 0x00000009 = ok 0x00000000#32 := by
  decide

theorem test_decBe1_windows :
    answerTo misaligned 0x00000039 = ok 0x00000001#32 := by
  decide

theorem test_decBe2_values :
    answerTo patternA 0x0000000A = ok 0x00001234#32 ∧
    answerTo patternB 0x0000000A = ok 0x0000FFFF#32 ∧
    answerTo patternC 0x0000000A = ok 0x00008000#32 ∧
    answerTo patternD 0x0000000A = ok 0x00000000#32 := by
  decide

theorem test_decBe2_windows :
    answerTo misaligned 0x0000003A = ok 0x00000102#32 ∧
    answerTo eight 0x0000006A = ok 0x0000A6A7#32 ∧
    answerTo eight 0x0000007A = ebound := by
  decide

theorem test_decBe3_values :
    answerTo patternA 0x0000000B = ok 0x00123456#32 ∧
    answerTo patternB 0x0000000B = ok 0x00FFFFFF#32 ∧
    answerTo patternC 0x0000000B = ok 0x00800000#32 ∧
    answerTo patternD 0x0000000B = ok 0x00000000#32 := by
  decide

theorem test_decBe3_windows :
    answerTo misaligned 0x0000003B = ok 0x00010203#32 := by
  decide

theorem test_decBe4_values :
    answerTo patternA 0x0000000C = ok 0x12345678#32 ∧
    answerTo patternB 0x0000000C = ok 0xFFFFFFFF#32 ∧
    answerTo patternC 0x0000000C = ok 0x80000001#32 ∧
    answerTo patternD 0x0000000C = ok 0x00000000#32 := by
  decide

theorem test_decBe4_windows :
    answerTo misaligned 0x0000003C = ok 0x01020304#32 ∧
    answerTo topFull 0xFFFFFFCC = ok 0xC1C2C3C4#32 := by
  decide

/-! ### Illegal lengths: 95_test_vectors 2.4 -/

theorem test_decX0_elen : answerTo patternA 0x00000000 = elen ∧ answerTo patternA 0x00000008 = elen := by decide

theorem test_decX5_elen : answerTo patternA 0x00000005 = elen ∧ answerTo patternA 0x0000000D = elen := by decide

theorem test_decX6_elen : answerTo patternA 0x00000006 = elen ∧ answerTo patternA 0x0000000E = elen := by decide

theorem test_decX7_elen : answerTo patternA 0x00000007 = elen ∧ answerTo patternA 0x00003E8F = elen := by decide

/-! ### Idle, reset, and a later request: 95_test_vectors 2.5 and P3 -/

/-- Edge 2 of 2.5: data and status hold while the valid flag falls; the levels of the other ports do not matter. -/
theorem test_idle_holds :
    response (step { block [0xAB#8] 1 with respValid := true, respData := 0x000000AB#32,
                                            inputs := [.quiet false somePorts noChange] }) =
      some (false, 0x000000AB#32, 0b00#2, false) := by decide

/-- Edge 5 of 2.5: the request is dropped, the sticky flag cleared. -/
theorem test_reset_drops_request :
    response (step { block [0xAB#8] 1 with respStatus := 0b10#2, stickyErr := true,
                                            inputs := [.request true ⟨1#3, 0#1, 0⟩] }) =
      some (false, 0x00000000#32, 0b00#2, false) := by decide

/-- Step 15 of P3: a request after a failed one is answered, and the sticky flag stays. -/
theorem test_request_after_error :
    answerTo { block [0x0A#8, 0x14#8, 0x1E#8] 3 with respValid := true, respStatus := 0b01#2, stickyErr := true }
      0x00000021 = some (true, 0x0000001E#32, 0b00#2, true) := by decide

/-- The last window of the address space, and no wrap past it (95_test_vectors 2.3); a bound of 0 (20_memory R31). -/
theorem test_bound_edges :
    answerTo topFull 0xFFFFFFC4 = ok 0xC4C3C2C1#32 ∧ answerTo topFull 0xFFFFFFD4 = ebound ∧
    answerTo (block [] 0) 0x00000001 = ebound := by decide

/-- The addresses a request reads: its window, or none (20_memory R39). -/
theorem test_reads :
    (eight.acceptRequest .little 3#3 4).reads = [4, 5, 6] ∧ (eight.acceptRequest .big 4#3 5).reads = [] := by decide

/-- The consumer's sign extension of P2: 0xFF9C is −100. -/
theorem test_signed_sample : Document.signedValue 2 0x0000FF9C#32 = -100 := by decide

/-! ### Decoding: words of the listings, and opcode_table.json -/

/-- `req = (offset << 4) | (endian << 3) | len`, written out bit by bit (30_encoding R47, R50). -/
theorem test_decode_bits :
    decode (addrW := 28) 0b0000_0000_0000_0000_0000_0010_1100_0010#32 = .decLe2 44 ∧
    decode (addrW := 28) 0b1111_1111_1111_1111_1111_1111_1111_1001#32 = .decBe1 0x0FFFFFFF ∧
    decode (addrW := 28) 0b0000_0000_0000_0000_0011_1110_1000_1111#32 = .decX7 .big 1000 := by decide

/-- Every constructor's word, from the listings of 95_test_vectors 2.1, 2.4 and P1 to P3. -/
theorem test_decode_words_little :
    decodeTableWord 32 0x00000381 = some (.decLe1 56) ∧ decodeTableWord 32 0x00000222 = some (.decLe2 34) ∧
    decodeTableWord 32 0x00000003 = some (.decLe3 0) ∧ decodeTableWord 32 0x000001C4 = some (.decLe4 28) := by decide

theorem test_decode_words_big :
    decodeTableWord 32 0x00000009 = some (.decBe1 0) ∧ decodeTableWord 32 0x0000006A = some (.decBe2 6) ∧
    decodeTableWord 32 0x0000003B = some (.decBe3 3) ∧ decodeTableWord 32 0x0000024C = some (.decBe4 36) := by decide

theorem test_decode_words_illegal :
    decodeTableWord 32 0x00000008 = some (.decX0 .big 0) ∧ decodeTableWord 32 0x00000005 = some (.decX5 .little 0) ∧
    decodeTableWord 32 0x0000000E = some (.decX6 .big 0) ∧ decodeTableWord 32 0x00000007 = some (.decX7 .little 0) ∧
    decodeTableWord 8 0x0000000F = some (.decX7 .big 0) := by decide

/-- A number of more than 32 bits is no packed word at `ADDR_W = 28`. -/
theorem test_decode_rejects : decodeTableWord 33 0x100000001 = none := by decide

/-- No word is covered by two rows: two rows differ in a bit both fix. -/
theorem test_rows_do_not_overlap :
    opcodeTable.Pairwise (fun r q => (r.bits ^^^ q.bits) &&& r.mask &&& q.mask ≠ 0#32) := by decide

/-! ### Well-formedness: an ill-formed term for each check -/

theorem test_wf_instr : Instr.wf 28 (.decLe1 0x0FFFFFFF) = true ∧ Instr.wf 28 (.decLe1 0x10000000) = false := by decide
theorem test_wf_ports : Ports.wf 4 ⟨7#3, 1#1, 15⟩ = true ∧ Ports.wf 4 ⟨1#3, 0#1, 16⟩ = false := by decide
theorem test_wf_line :
    Line.wf 4 (.dec .big 0#3 16) = false ∧ Line.wf 4 (.pseudo .tag4 16) = false ∧ Line.wf 4 .idle = true := by decide
theorem test_wf_change :
    Change.wf 4 ⟨[(15, 0x01#8)], some 31⟩ = true ∧ Change.wf 4 ⟨[(16, 0x01#8)], none⟩ = false ∧
    Change.wf 4 ⟨[], some 32⟩ = false := by decide
theorem test_wf_cycle :
    ClockCycle.wf 4 (.request false ⟨1#3, 0#1, 16⟩) = false ∧
    ClockCycle.wf 4 (.quiet false ⟨1#3, 0#1, 16⟩ noChange) = false ∧
    ClockCycle.wf 4 (.quiet true ⟨1#3, 0#1, 0⟩ ⟨[], some 32⟩) = false := by decide

/-! ### The assembler: lines of P2 and P1 -/

/-- What a text reads as, if it reads. -/
def readsAs (t : String) : Option Line := ((parseLine 28 t.toList).toOption).join

theorem test_parse_line : readsAs "      DEC.LE.2 44      ; 0x000002C2  left[0]" = some (.dec .little 2#3 44) := by decide
theorem test_parse_hex : readsAs "DEC.BE.4 0x0FFFFFFC" = some (.dec .big 4#3 0x0FFFFFFC) := by decide
theorem test_parse_pseudo : readsAs "TAG4 12" = some (.pseudo .tag4 12) ∧ readsAs "IDLE" = some .idle := by decide
theorem test_parse_refuses : readsAs "DEC.LE.8 0" = none ∧ readsAs "U8 -1" = none ∧ readsAs "U8 268435456" = none := by decide
theorem test_line_word : Line.word 28 (.pseudo .tag4 12) = some 0x000000CC#32 ∧ Line.word 28 .idle = none := by decide

/-! ### Memory: the canonical form -/

theorem test_write_canonical :
    Memory.write [(1, 0x11#8), (3, 0x33#8)] 2 0x22#8 = [(1, 0x11#8), (2, 0x22#8), (3, 0x33#8)] ∧
    Memory.write [(1, 0x11#8), (3, 0x33#8)] 3 0x00#8 = [(1, 0x11#8)] := by decide

/-! ### Witnesses: concrete states and operands that meet the hypotheses of each statement, clause by clause -/

def presenting (s : State) (rst : Bool) (p : Ports) : State := { s with inputs := [.request rst p] }
def quietly (s : State) (rst : Bool) (p : Ports) (ch : Change) : State := { s with inputs := [.quiet rst p ch] }
def someChange : Change := ⟨[(2, 0x5A#8), (2, 0x5B#8)], some 9⟩

theorem witness_DecodeOfEncodeGivesTheRequest :
    Instr.wf 28 (.decBe3 (2 ^ 28 - 1)) = true ∧ Instr.wf 0 (.decX5 .big 0) = true := by decide

theorem witness_DecodeLooksAtTheCommandNibbleOnly :
    (0x000002C2#32 : BitVec (28 + 4)).extractLsb' 0 4 = (0xF2#8 : BitVec (4 + 4)).extractLsb' 0 4 := by decide

theorem witness_TheSixteenNibblesSelectTheRequests :
    0b1111#4 ∈ [0b0000#4, 0b0101#4, 0b0110#4, 0b0111#4, 0b1000#4, 0b1101#4, 0b1110#4, 0b1111#4] := by decide

theorem witness_PackedWordIsShiftedFieldsOred :
    Instr.wf 28 (.decLe4 (2 ^ 28 - 1)) = true ∧ 0xFFFFFFF4#32 = encode 28 (.decLe4 (2 ^ 28 - 1)) := by decide

theorem witness_OpcodeTableRowsMatchExactlyTheirInstruction :
    (⟨"DEC.x.7__illegal_length__ELEN", 0x00000007#32, 0x00000007#32⟩ : OpcodeRow) ∈ opcodeTable := by decide

theorem witness_ListingLinesAssembleToTheirWords : (Line.dec .big 7#3 (2 ^ 28 - 1)).wf 28 = true := by decide

theorem witness_StepRunsTheDecodedRequest :
    (presenting eight false somePorts).inputs = .request false somePorts :: [] ∧
    somePorts.wf eight.addrW = true ∧ (Instr.decBe2 3).wf eight.addrW = true ∧
    somePorts.pack eight.addrW = encode eight.addrW (.decBe2 3) := by decide

theorem witness_IdleEdgeClearsOnlyValid :
    (quietly eight false somePorts someChange).inputs = .quiet false somePorts someChange :: [] ∧
    somePorts.wf eight.addrW = true ∧ someChange.wf eight.addrW = true := by decide

theorem witness_AnEmptyListOfCyclesIsIdle : State.reset.inputs = [] := by decide

theorem witness_ResetEdgeWritesTheResetValues :
    (presenting eight true somePorts).inputs = .request true somePorts :: [] ∧
    (quietly eight true somePorts someChange).inputs = .quiet true somePorts someChange :: [] ∧
    (ClockCycle.quiet true somePorts someChange).rst = true ∧
    (ClockCycle.quiet true somePorts someChange).wf eight.addrW = true ∧ somePorts.wf eight.addrW = true ∧
    ∃ t, step (presenting { eight with stickyErr := true } true somePorts) = .next t ∧ t.stickyErr = false :=
  ⟨rfl, rfl, rfl, by decide, by decide, _, rfl, rfl⟩

theorem witness_DecLe1ReadsOneByte : 7 + 1 ≤ eb eight ∧ eb eight < 8 + 1 ∧ 2 ^ 28 - 1 < 2 ^ eight.addrW := by decide

theorem witness_DecLe2ReadsTwoBytesFirstLeast : 6 + 2 ≤ eb eight ∧ eb eight < 7 + 2 ∧ 2 ^ 28 - 1 < 2 ^ eight.addrW := by decide

theorem witness_DecLe3ReadsThreeBytesFirstLeast : 5 + 3 ≤ eb eight ∧ eb eight < 6 + 3 ∧ 2 ^ 28 - 1 < 2 ^ eight.addrW := by decide

theorem witness_DecLe4ReadsFourBytesFirstLeast : 4 + 4 ≤ eb eight ∧ eb eight < 5 + 4 ∧ 2 ^ 28 - 1 < 2 ^ eight.addrW := by decide

theorem witness_DecBe1ReadsOneByte : 7 + 1 ≤ eb eight ∧ eb eight ≤ 8 ∧ 2 ^ 28 - 1 < 2 ^ eight.addrW := by decide

theorem witness_DecBe2ReadsTwoBytesFirstMost : 6 + 2 ≤ eb eight ∧ eb eight < 7 + 2 ∧ 2 ^ 28 - 1 < 2 ^ eight.addrW := by decide

theorem witness_DecBe3ReadsThreeBytesFirstMost : 5 + 3 ≤ eb eight ∧ eb eight < 6 + 3 ∧ 2 ^ 28 - 1 < 2 ^ eight.addrW := by decide

theorem witness_DecBe4ReadsFourBytesFirstMost : 4 + 4 ≤ eb eight ∧ eb eight < 5 + 4 ∧ 2 ^ 28 - 1 < 2 ^ eight.addrW := by decide

theorem witness_IllegalLengthsAnswerElen :
    ∃ t, exec (.decLe1 8) eight = .next t ∧ t.respStatus = 0b10#2 := ⟨_, rfl, rfl⟩

theorem witness_WindowPastTheBoundAnswersEbound :
    1 ≤ (Instr.decLe4 5).len ∧ (Instr.decLe4 5).len ≤ 4 ∧ eb eight < (Instr.decLe4 5).offset + (Instr.decLe4 5).len := by
  decide

theorem witness_EffectiveBoundIsTheSmallerBound :
    2 ^ eight.addrW ≤ 2 ^ 28 ∧ (∃ t, exec (.decLe1 0) { eight with bound := 2 ^ eight.addrW } = .next t) ∧
    1 ≤ (Instr.decBe4 0).len ∧ (Instr.decBe4 0).len ≤ 4 ∧ State.reset.bound = 0 :=
  ⟨by decide, ⟨_, rfl⟩, by decide, by decide, rfl⟩

theorem witness_DecodedValuesAreWeightedByteSums : 1 ≤ 4 ∧ 4 ≤ 4 := by decide

theorem witness_DecodeIsAByteLaneMultiplexer : 1 ≤ 3 ∧ 3 ≤ 4 ∧ 3 < 4 := by decide

theorem witness_ByteOrdersMirrorEachOther :
    4 ≤ 4 ∧ (∀ i < 4, (block [0x01#8, 0x02#8, 0x03#8, 0x04#8] 4).buf.read (0 + i) =
      (block [0x04#8, 0x03#8, 0x02#8, 0x01#8] 4).buf.read (0 + (4 - 1 - i))) ∧ 3 < 4 := by decide

theorem witness_EveryValueOfTheWidthIsReached :
    eight.buf.wf ∧ 1 ≤ (4#3).toNat ∧ (4#3).toNat ≤ 4 ∧ 4 + (4#3).toNat ≤ eb eight ∧
    0xFFFFFFFF < 2 ^ (8 * (4#3).toNat) := by decide

theorem witness_ARequestReadsExactlyItsWindow :
    (∃ t, exec (.decBe4 4) eight = .next t ∧ t.respStatus = 0b00#2) ∧
    ∃ t, exec (.decBe4 5) eight = .next t ∧ t.respStatus ≠ 0b00#2 :=
  ⟨⟨_, rfl, rfl⟩, ⟨_, rfl, by decide⟩⟩

theorem witness_ResponseDependsOnlyOnRequestBoundAndWindow :
    (presenting misaligned false somePorts).inputs = .request false somePorts :: [] ∧
    (presenting (block [0x00#8, 0x00#8, 0x00#8, 0x01#8, 0x02#8] 8) false somePorts).inputs =
      .request false somePorts :: [] ∧
    somePorts.wf misaligned.addrW = true ∧
    misaligned.addrW = (block [0x00#8, 0x00#8, 0x00#8, 0x01#8, 0x02#8] 8).addrW ∧
    misaligned.bound = (block [0x00#8, 0x00#8, 0x00#8, 0x01#8, 0x02#8] 8).bound ∧
    ∀ a < 5, 3 ≤ a → misaligned.buf.read a = (block [0x00#8, 0x00#8, 0x00#8, 0x01#8, 0x02#8] 8).buf.read a := by
  decide

theorem witness_EarlierRequestsLeaveNothingBehind :
    ∃ t u v, exec (.decX0 .little 0) eight = .next t ∧ exec (.decLe2 6) t = .next u ∧ exec (.decLe2 6) eight = .next v :=
  ⟨_, _, _, rfl, rfl, rfl⟩

theorem witness_RepeatingARequestRepeatsTheAnswer :
    (∃ t, exec (.decLe3 5) eight = .next t) ∧
    eight.buf = (presenting { eight with stickyErr := true } false somePorts).buf ∧
    eight.bound = (presenting { eight with stickyErr := true } false somePorts).bound ∧
    eight.addrW = (presenting { eight with stickyErr := true } false somePorts).addrW :=
  ⟨⟨_, rfl⟩, rfl, rfl, rfl⟩

theorem witness_TheBlockNeverWritesBufferOrBound :
    (∃ t, exec (.decLe3 5) eight = .next t) ∧
    (∃ t, step (quietly eight false somePorts someChange) = .next t) ∧
    (∃ t, step (presenting eight false somePorts) = .next t) ∧
    ∀ r p ch rest, (presenting eight false somePorts).inputs ≠ .quiet r p ch :: rest :=
  ⟨⟨_, rfl⟩, ⟨_, rfl⟩, ⟨_, rfl⟩, by simp [presenting]⟩

theorem witness_AnEdgeWritesOnlyWhatItOwns :
    (∃ t, step (presenting eight false somePorts) = .next t ∧ t.respData ≠ eight.respData) ∧
    (∀ c ∈ (presenting eight false somePorts).inputs, c.rst = false) ∧
    ∃ t, step (quietly eight false somePorts someChange) = .next t :=
  ⟨⟨_, rfl, by decide⟩, by decide, ⟨_, rfl⟩⟩

theorem witness_TheReservedStatusIsNeverWritten :
    (∃ t, exec (.decX7 .big 0) eight = .next t) ∧
    ∃ t, step (quietly { eight with respStatus := 0b11#2 } false somePorts noChange) = .next t ∧
      t.respStatus = 0b11#2 :=
  ⟨⟨_, rfl⟩, ⟨_, rfl, rfl⟩⟩

theorem witness_ValidMarksAcceptedRequests : ∃ t, step (presenting eight false somePorts) = .next t ∧ t.respValid = true :=
  ⟨_, rfl, rfl⟩

theorem witness_StickyFlagChangesOnlyByFailureOrReset :
    (∃ t, step (presenting eight true somePorts) = .next t) ∧
    (ClockCycle.accepted (.request false somePorts) = true) ∧
    (∃ t, step (presenting eight false somePorts) = .next t ∧ t.respStatus = 0b00#2) ∧
    (∃ t, step (presenting State.reset false somePorts) = .next t ∧ t.respStatus ≠ 0b00#2) ∧
    (∃ t, step (quietly eight false somePorts noChange) = .next t) ∧
    ∃ t, step eight = .next t ∧ eight.inputs = [] :=
  ⟨⟨_, rfl⟩, rfl, ⟨_, rfl, rfl⟩, ⟨_, rfl, by decide⟩, ⟨_, rfl⟩, ⟨_, rfl, rfl⟩⟩

theorem witness_StickyFlagRecordsEveryFailureOfARun :
    (∃ t, Host.Core.run Sys2Proof.core 1 (presenting State.reset false somePorts) = .next t) ∧
    ∀ c ∈ (presenting State.reset false somePorts).inputs.take 1, c.rst = false :=
  ⟨⟨_, rfl⟩, by decide⟩

theorem witness_EveryDrivableCycleIsTaken :
    ∀ c ∈ (quietly eight true somePorts someChange).inputs, c.wf eight.addrW = true := by decide

theorem witness_AResponseStandsUntilTheNextEdge :
    ({ eight with inputs := [.request false somePorts, .quiet false somePorts someChange] } : State).inputs =
      .request false somePorts :: .quiet false somePorts someChange :: [] ∧
    ({ eight with inputs := [.request false somePorts, .request false somePorts] } : State).inputs =
      .request false somePorts :: .request false somePorts :: [] ∧
    somePorts.wf eight.addrW = true ∧ someChange.wf eight.addrW = true := by decide

theorem witness_ALaterRequestSeesTheChangedBuffer :
    ({ eight with inputs := [.quiet true somePorts someChange, .request false somePorts] } : State).inputs =
      .quiet true somePorts someChange :: .request false somePorts :: [] ∧
    somePorts.wf eight.addrW = true ∧ someChange.wf eight.addrW = true ∧ eight.buf.wf ∧
    (∀ c ∈ cellsFrom 3 [0x01#8], c.1 ≠ 2) := by decide

theorem witness_EveryStepKeepsTheMachineSound :
    Safety.Inv { State.reset with inputs := [.request false somePorts] } ∧
    ∃ t, step { State.reset with inputs := [.request false somePorts] } = .next t :=
  ⟨⟨by decide, by decide, by decide, by decide, by decide, by decide, by decide, by decide,
    ⟨0, 0, by decide, rfl⟩, by decide⟩, _, rfl⟩

theorem witness_RequestsRefineTheDocumentsDecode :
    patternA.bound = [0x12#8, 0x34#8, 0x56#8, 0x78#8].length ∧
    [0x12#8, 0x34#8, 0x56#8, 0x78#8].length ≤ 2 ^ patternA.addrW ∧
    ∀ i < [0x12#8, 0x34#8, 0x56#8, 0x78#8].length,
      [0x12#8, 0x34#8, 0x56#8, 0x78#8][i]? = some (patternA.buf.read i) := by decide

theorem witness_HostSignedBytesAreRebiased :
    (-128 : Int) ≤ -128 ∧ (-128 : Int) ≤ 127 ∧ Document.rebias (-128) = 0x80#8 ∧ Document.rebias 127 = 0x7F#8 ∧
    Document.rebias (-1) = 0xFF#8 := by decide

end Sys2Proof.Tests
end

section
/-! The statements of 00_scope: what a response depends on (R14), the document's function (R5, R10), and the bytes a
host stores signed (R11). -/

/-! ### The request that is sampled, and what it does -/

namespace Sys2Proof

/-- A request named by its fields has the byte order it was named with. -/
@[simp] theorem Instr.endian_ofFields (e : Endian) (len : BitVec 3) (o : Nat) :
    (Instr.ofFields e len o).endian = e := (Instr.ofFields_cases e len o).2.1

/-- A request named by its fields has the length it was named with. -/
@[simp] theorem Instr.len_ofFields (e : Endian) (len : BitVec 3) (o : Nat) :
    (Instr.ofFields e len o).len = len.toNat := (Instr.ofFields_cases e len o).1

/-- A request named by its fields has the offset it was named with. -/
@[simp] theorem Instr.offset_ofFields (e : Endian) (len : BitVec 3) (o : Nat) :
    (Instr.ofFields e len o).offset = o := (Instr.ofFields_cases e len o).2.2

/-- Drivable ports pack into a word that decodes to the request of their levels (30_encoding R46, R47). -/
theorem decode_pack {addrW : Nat} {p : Ports} (h : p.wf addrW = true) :
    decode (p.pack addrW) = Instr.ofFields (Endian.ofBit p.endian) p.len p.offset := by
  have ho : p.offset < 2 ^ addrW := of_decide_eq_true h
  have hword := Ports.pack_toNat addrW p
  rw [Nat.mod_eq_of_lt ho] at hword
  have hendian : endianField (p.pack addrW) = p.endian :=
    BitVec.eq_of_toNat_eq (by rw [endianField_toNat]; omega)
  have hlen : lenField (p.pack addrW) = p.len := BitVec.eq_of_toNat_eq (by rw [lenField_toNat]; omega)
  have hoffset : offsetField (p.pack addrW) = p.offset := by rw [offsetField_eq]; omega
  rw [decode, hendian, hlen, hoffset]

end Sys2Proof

namespace Sys2Proof.Machine

/-- A request named by its fields performs the common step with them (40_decode R59). -/
theorem exec_ofFields (e : Endian) (len : BitVec 3) (o : Nat) (s : State) :
    exec (Instr.ofFields e len o) s = .next (s.acceptRequest e len o) := by
  simp [exec_eq_acceptRequest]

/-- A step whose next cycle presents a request outside reset performs the common step with the levels of the ports
(40_decode R59, 70_reset_and_hazards R100). -/
theorem step_of_request {s : State} {p : Ports} {rest : List ClockCycle}
    (hi : s.inputs = .request false p :: rest) (hp : p.wf s.addrW = true) :
    step s = .next (State.acceptRequest { s with inputs := rest } (Endian.ofBit p.endian) p.len p.offset) := by
  have hstep : step s = exec (decode (p.pack s.addrW)) { s with inputs := rest } := by
    simp [step, State.nextEdge, hi, ClockCycle.wf, hp, State.clockEdge, State.sampled]
  rw [hstep, decode_pack hp, exec_ofFields]

/-! ### What a response depends on -/

/-- The response register and the addresses read: what 00_scope R14 lets an observer of a request see of a block. -/
def SameResponse (t t' : State) : Prop :=
  t.respValid = t'.respValid ∧ t.respData = t'.respData ∧ t.respStatus = t'.respStatus ∧ t.reads = t'.reads

/-- The same request over the same effective bound and the same bytes in the window is answered alike. -/
theorem acceptRequest_sameResponse {s s' : State} (e : Endian) {len : BitVec 3} {o : Nat}
    (hbound : s.effectiveBound = s'.effectiveBound)
    (hwindow : ∀ i < len.toNat, s.buf.read (o + i) = s'.buf.read (o + i)) :
    SameResponse (s.acceptRequest e len o) (s'.acceptRequest e len o) := by
  by_cases hlen : len.toNat < 1 ∨ 4 < len.toNat
  · rw [s.acceptRequest_elen e o hlen, s'.acceptRequest_elen e o hlen]
    exact ⟨rfl, rfl, rfl, rfl⟩
  · by_cases hfit : s.effectiveBound < o + len.toNat
    · rw [s.acceptRequest_ebound e hlen hfit, s'.acceptRequest_ebound e hlen (hbound ▸ hfit)]
      exact ⟨rfl, rfl, rfl, rfl⟩
    · rw [s.acceptRequest_ok e hlen hfit, s'.acceptRequest_ok e hlen (hbound ▸ hfit)]
      exact ⟨rfl, Memory.windowValue_congr e hwindow, rfl, rfl⟩

end Sys2Proof.Machine

namespace Sys2Proof.Proofs

open Sys2Proof.Machine

/-- Settles O33: both steps are the common step of 40_decode R59, which looks at the effective bound and the window
only. -/
theorem responseDependsOnlyOnRequestBoundAndWindow :
    Obligations.ResponseDependsOnlyOnRequestBoundAndWindow := by
  intro s s' p rest rest' hi hi' hp haddrW hbound hwindow
  refine ⟨_, _, step_of_request hi hp, step_of_request hi' (haddrW ▸ hp), ?_⟩
  refine acceptRequest_sameResponse _ ?_ fun i hlt => hwindow (p.offset + i) (by omega) (by omega)
  simp only [State.effectiveBound, haddrW, hbound]

end Sys2Proof.Proofs

/-! ### The document's function -/

namespace Sys2Proof.Document

open Sys2Proof.Machine

/-- The value of the bytes of a window in a byte order, as the document's function weighs them. -/
def valueOf (e : Endian) (window : List Byte) : Nat :=
  match e with
  | .little => window.foldr (fun b n => n * 256 + b.toNat) 0
  | .big => window.foldl (fun n b => n * 256 + b.toNat) 0

/-- Little-endian is big-endian of the reversed bytes (40_decode R75). -/
theorem valueOf_little (window : List Byte) : valueOf .little window = valueOf .big window.reverse :=
  List.foldl_reverse.symm

/-- The document's function: its two failures, then the value of the window. -/
theorem decodeCall_eq (bytes : List Byte) (o n : Nat) (e : Endian) :
    decodeCall bytes o n e =
      if n < 1 ∨ 4 < n then .error .invalidArgument
      else if bytes.length < o + n then .error .truncatedInput
      else .ok (valueOf e ((bytes.drop o).take n)) := by
  cases e <;> rfl

/-- A list of bytes and a buffer that agree have the same windows. -/
theorem window_eq_map_read {bytes : List Byte} {m : Memory} {o n : Nat}
    (hm : ∀ i < bytes.length, bytes[i]? = some (m.read i)) (hfit : o + n ≤ bytes.length) :
    (bytes.drop o).take n = (List.range n).map fun i => m.read (o + i) := by
  apply List.ext_getElem?
  intro i
  by_cases hi : i < n
  · simp [hi, hm (o + i) (by omega)]
  · simp [hi]

/-- The loop's shifts lose nothing of at most four bytes: with an accumulator of `k` bytes they weigh the bytes as the
document does. -/
theorem foldl_shiftIn_toNat (window : List Byte) (acc : Word) (k : Nat) (hacc : acc.toNat < 2 ^ (8 * k))
    (hk : k + window.length ≤ 4) :
    (window.foldl shiftIn acc).toNat = window.foldl (fun n b => n * 256 + b.toNat) acc.toNat := by
  induction window generalizing acc k with
  | nil => rfl
  | cons b window ih =>
    rw [List.length_cons] at hk
    have hroom : acc.toNat < 2 ^ 24 := lt_of_lt_of_le hacc (Nat.pow_le_pow_right (by omega) (by omega))
    have hshift := shiftIn_toNat b hroom
    have hacc' : (shiftIn acc b).toNat < 2 ^ (8 * (k + 1)) := by
      have hb := b.isLt
      rw [hshift, Nat.mul_add, Nat.pow_add]
      omega
    rw [List.foldl_cons, List.foldl_cons, ih _ (k + 1) hacc' (by omega), hshift]

/-- The loop over at most four places of a buffer weighs their bytes big-endian, in the order of the places. -/
theorem accumulated_toNat (m : Memory) (o : Nat) (is : List Nat) (h : is.length ≤ 4) :
    (m.accumulated o is).toNat = valueOf .big (is.map fun i => m.read (o + i)) := by
  rw [Memory.accumulated, ← List.foldl_map (f := fun i => m.read (o + i)) (g := shiftIn)]
  exact foldl_shiftIn_toNat _ _ 0 (by decide) (by simpa using h)

/-- The block's value of a window of at most four bytes is the document's (40_decode R60, R61, R63). -/
theorem windowValue_toNat (m : Memory) (e : Endian) (o : Nat) {n : Nat} (hn : n ≤ 4) :
    (m.windowValue e o n).toNat = valueOf e ((List.range n).map fun i => m.read (o + i)) := by
  cases e with
  | little =>
    rw [valueOf_little, ← List.map_reverse]
    exact accumulated_toNat m o _ (by simpa [loopOrder] using hn)
  | big => exact accumulated_toNat m o _ (by simpa [loopOrder] using hn)

/-- A raised error is read as the document's error kind (60_exceptions R78, R79). -/
@[simp] theorem answer_raise (s : State) (c : ErrorCause) (d : Word) :
    answer (s.raise c d).outputs = some (.error (errorKind c)) := by
  cases c <;> rfl

/-- A valid response with status OK is read as its value (60_exceptions R83). -/
theorem answer_ok {s : State} (hvalid : s.respValid = true) (hstatus : s.respStatus = statusOk) :
    answer s.outputs = some (.ok s.respData.toNat) := by
  simp [answer, State.outputs, readStatus, hvalid, hstatus]

/-- The common step over a buffer that holds the bytes of a list, with its length as effective bound, is answered as
the document's function answers the call (40_decode R59). -/
theorem answer_acceptRequest {s : State} {bytes : List Byte} (e : Endian) (len : BitVec 3) (o : Nat)
    (hbound : s.effectiveBound = bytes.length) (hbuf : ∀ i < bytes.length, bytes[i]? = some (s.buf.read i)) :
    answer (s.acceptRequest e len o).outputs = some (decodeCall bytes o len.toNat e) := by
  by_cases hlen : len.toNat < 1 ∨ 4 < len.toNat
  · rw [s.acceptRequest_elen e o hlen, answer_raise, decodeCall_eq, if_pos hlen, errorKind]
  · by_cases hfit : bytes.length < o + len.toNat
    · rw [s.acceptRequest_ebound e hlen (hbound ▸ hfit), answer_raise, decodeCall_eq, if_neg hlen, if_pos hfit,
        errorKind]
    · rw [s.acceptRequest_ok e hlen (hbound ▸ hfit), answer_ok rfl rfl, decodeCall_eq, if_neg hlen,
        if_neg hfit, window_eq_map_read hbuf (by omega), windowValue_toNat s.buf e o (by omega)]

end Sys2Proof.Document

namespace Sys2Proof.Proofs

open Sys2Proof.Machine

/-- Settles O48: a call's request is the common step, answered case by case as the document's function is; the length
of the list is the effective bound because it fits the address space. -/
theorem requestsRefineTheDocumentsDecode : Obligations.RequestsRefineTheDocumentsDecode := by
  intro s bytes o len e hbound hspace hbuf
  have heb : s.effectiveBound = bytes.length := by rw [State.effectiveBound, hbound, Nat.min_eq_left hspace]
  exact ⟨_, exec_ofFields e len o s, Document.answer_acceptRequest e len o heb hbuf⟩

end Sys2Proof.Proofs

/-! ### Host-signed bytes -/

namespace Sys2Proof.Document

/-- Re-biasing is reduction to eight bits: the pattern of the two's complement (00_scope R11). -/
theorem rebias_eq_ofInt {z : Int} (h : -256 ≤ z) : rebias z = BitVec.ofInt 8 z := by
  apply BitVec.eq_of_toNat_eq
  rw [BitVec.toNat_ofInt, rebias]
  split <;> rw [BitVec.toNat_ofNat] <;> omega

/-- The unsigned value of a host-signed byte (00_scope R11). -/
theorem rebias_toNat {z : Int} (hlow : -256 ≤ z) (hhigh : z < 256) :
    ((rebias z).toNat : Int) = if 0 ≤ z then z else z + 256 := by
  rw [rebias_eq_ofInt hlow, BitVec.toNat_ofInt]
  split <;> omega

end Sys2Proof.Document

namespace Sys2Proof.Proofs

/-- Settles O49: the byte is `z` reduced to eight bits, which reads back signed as `z` in the signed range, and the mask
`0xFF` keeps every bit. -/
theorem hostSignedBytesAreRebiased : Obligations.HostSignedBytesAreRebiased := by
  intro z hlow hhigh
  have hbits := Document.rebias_eq_ofInt (z := z) (by omega)
  refine ⟨Document.rebias_toNat (by omega) (by omega), ?_, ?_⟩
  · rw [hbits, BitVec.toInt_ofInt]
    exact Int.bmod_eq_of_le (by omega) (by omega)
  · rw [hbits]
    exact BitVec.and_allOnes.symm

end Sys2Proof.Proofs
end

section
/-! The statements of 10_state: who writes which piece of state (R18 to R21, R28), the reset values (R27), the output
ports (R29), and the invariant every step keeps. -/

/-! ### Values of a window -/

namespace Sys2Proof.Document

/-- A window of `n` bytes has a value of `8n` bits, in either byte order (40_decode R63). -/
theorem valueOf_lt (e : Endian) (window : List Byte) : valueOf e window < 2 ^ (8 * window.length) := by
  have little : ∀ bytes : List Byte, valueOf .little bytes < 2 ^ (8 * bytes.length) := by
    intro bytes
    induction bytes with
    | nil => decide
    | cons b bytes ih =>
      have hb := b.isLt
      rw [valueOf] at ih ⊢
      rw [List.foldr_cons, List.length_cons, Nat.mul_add, Nat.pow_add]
      omega
  cases e with
  | little => exact little window
  | big => simpa [valueOf_little] using little window.reverse

/-- The block's value of a window of `n` bytes has `8n` bits (40_decode R63). -/
theorem windowValue_lt (m : Machine.Memory) (e : Endian) (o : Nat) {n : Nat} (hn : n ≤ 4) :
    (m.windowValue e o n).toNat < 2 ^ (8 * n) := by
  rw [windowValue_toNat m e o hn]
  simpa using valueOf_lt e ((List.range n).map fun i => m.read (o + i))

end Sys2Proof.Document

/-! ### The levels of a cycle, and what an edge writes -/

namespace Sys2Proof

@[simp] theorem ClockCycle.rst_request (r : Bool) (p : Ports) : (ClockCycle.request r p).rst = r := rfl
@[simp] theorem ClockCycle.rst_quiet (r : Bool) (p : Ports) (ch : Change) : (ClockCycle.quiet r p ch).rst = r := rfl
@[simp] theorem ClockCycle.reqValid_request (r : Bool) (p : Ports) : (ClockCycle.request r p).reqValid = true := rfl
@[simp] theorem ClockCycle.reqValid_quiet (r : Bool) (p : Ports) (ch : Change) :
    (ClockCycle.quiet r p ch).reqValid = false := rfl
@[simp] theorem ClockCycle.accepted_request (r : Bool) (p : Ports) : (ClockCycle.request r p).accepted = !r := rfl
@[simp] theorem ClockCycle.accepted_quiet (r : Bool) (p : Ports) (ch : Change) :
    (ClockCycle.quiet r p ch).accepted = false := rfl

end Sys2Proof

namespace Sys2Proof.Machine

/-- The code of an error is not OK, as the Boolean test the sticky flag takes. -/
@[simp] theorem ErrorCause.code_bne_ok (c : ErrorCause) : (c.code != statusOk) = true := bne_iff_ne.mpr c.code_ne_ok

/-- A failed request's whole next state: the error, the sticky flag, and no address read (60_exceptions R82). -/
theorem beginEdge_raise_eq (s : State) (c : ErrorCause) (d : Word) :
    s.beginEdge.raise c d =
      { s with respValid := true, respData := d, respStatus := c.code, stickyErr := true, reads := [] } := rfl

/-- All a request writes: the response register, the sticky flag when it fails, and the addresses read
(10_state R28). -/
theorem exec_frame {i : Instr} {s t : State} (h : exec i s = .next t) :
    t = { s with respValid := true, respData := t.respData, respStatus := t.respStatus,
                 stickyErr := s.stickyErr || t.respStatus != statusOk, reads := t.reads } := by
  obtain ⟨-, rfl⟩ | ⟨-, -, rfl⟩ | ⟨-, -, rfl⟩ := exec_cases h
  · simp [beginEdge_raise_eq]
  · simp [beginEdge_raise_eq]
  · simp

/-- A request is always answered, a failed one included (10_state R18). -/
theorem exec_respValid {i : Instr} {s t : State} (h : exec i s = .next t) : t.respValid = true :=
  congrArg State.respValid (exec_frame h)

/-- A request sets the sticky flag when it fails, and leaves it alone otherwise (60_exceptions R82). -/
theorem exec_stickyErr {i : Instr} {s t : State} (h : exec i s = .next t) :
    t.stickyErr = (s.stickyErr || t.respStatus != statusOk) :=
  congrArg State.stickyErr (exec_frame h)

/-- A step that takes a cycle off the list is the edge of that cycle. -/
theorem clockEdge_of_step {s t : State} {c : ClockCycle} {rest : List ClockCycle} (hi : s.inputs = c :: rest)
    (h : step s = .next t) : State.clockEdge { s with inputs := rest } c = .next t := by
  simp only [step, State.nextEdge, hi] at h
  split at h
  · exact h
  · cases h

/-- A step takes the next cycle off the list, if one is listed. -/
theorem step_inputs {s t : State} (h : step s = .next t) : t.inputs = s.inputs.tail := by
  obtain ⟨hi, rfl⟩ | ⟨p, rest, hi, -, rfl⟩ | ⟨p, rest, hi, -, hexec⟩ | ⟨p, ch, rest, hi, -, -, rfl⟩ |
    ⟨p, ch, rest, hi, -, -, rfl⟩ := step_cases h
  case inr.inr.inl =>
    obtain ⟨-, -, -, hinputs⟩ := exec_keeps_inputs hexec
    simp [hi, hinputs]
  all_goals simp [hi]

/-- Outside reset an edge accepts a request, or nothing is presented and it writes `RESP.VALID` alone of the block
(10_state R28). -/
theorem step_outside_reset {s t : State} (h : step s = .next t)
    (hrst : ∀ c rest, s.inputs = c :: rest → c.rst = false) :
    (∃ p rest, s.inputs = .request false p :: rest ∧ exec (s.sampled p) { s with inputs := rest } = .next t) ∨
    (t.respValid = false ∧ t.respData = s.respData ∧ t.respStatus = s.respStatus ∧ t.stickyErr = s.stickyErr) := by
  obtain ⟨-, rfl⟩ | ⟨p, rest, hi, -, -⟩ | ⟨p, rest, hi, -, hexec⟩ | ⟨p, ch, rest, hi, -, -, -⟩ |
    ⟨p, ch, rest, hi, -, -, rfl⟩ := step_cases h
  · exact .inr ⟨rfl, rfl, rfl, rfl⟩
  · exact absurd (hrst _ _ hi) (by simp)
  · exact .inl ⟨p, rest, hi, hexec⟩
  · exact absurd (hrst _ _ hi) (by simp)
  · exact .inr ⟨rfl, rfl, rfl, rfl⟩

end Sys2Proof.Machine

/-! ### The invariant -/

namespace Sys2Proof.Safety

open Sys2Proof.Machine

/-- The part of the invariant that speaks of the environment's side: the buffer and the bound. -/
structure InputsSound (addrW : Nat) (buf : Memory) (bound : Nat) : Prop where
  buf_canonical : buf.wf
  buf_in_space : ∀ c ∈ buf, c.1 < 2 ^ addrW
  bound_fits : bound < 2 ^ (addrW + 1)

/-- The part of the invariant that speaks of the status held, with a valid response or without. -/
structure StatusSound (status : BitVec 2) (data : Word) (sticky : Bool) : Prop where
  status_legal : status ≠ statusReserved
  error_data : status ≠ statusOk → data = 0x00000000#32
  error_sticky : status ≠ statusOk → sticky = true

/-- The status OK is sound with any data and any flag. -/
theorem statusSound_ok (data : Word) (sticky : Bool) : StatusSound statusOk data sticky :=
  ⟨statusOk_ne_reserved, fun herr => absurd rfl herr, fun herr => absurd rfl herr⟩

/-- An error's code is sound with data 0 and the flag set (60_exceptions R77, R82). -/
theorem statusSound_code (c : ErrorCause) : StatusSound c.code 0x00000000#32 true :=
  ⟨c.code_ne_reserved, fun _ => rfl, fun _ => rfl⟩

/-- What the environment can drive leaves the buffer and the bound sound (20_memory R30, R31). -/
theorem InputsSound.applyChange {addrW : Nat} {buf : Memory} {bound : Nat} (h : InputsSound addrW buf bound)
    {ch : Change} (hch : ch.wf addrW = true) : InputsSound addrW (buf.fill ch.fill) (ch.bound.getD bound) := by
  refine ⟨Memory.wf_fill h.buf_canonical ch.fill, fill_in_space hch h.buf_in_space, ?_⟩
  simp only [Change.wf, Bool.and_eq_true] at hch
  obtain ⟨-, hbound⟩ := hch
  cases hb : ch.bound with
  | none => exact h.bound_fits
  | some b =>
    rw [hb] at hbound
    exact of_decide_eq_true hbound

variable {s : State}

theorem Inv.inputsSound (h : Inv s) : InputsSound s.addrW s.buf s.bound :=
  ⟨h.buf_canonical, h.buf_in_space, h.bound_fits⟩

theorem Inv.statusSound (h : Inv s) : StatusSound s.respStatus s.respData s.stickyErr :=
  ⟨h.status_legal, h.error_data, h.error_sticky⟩

/-- When nothing has been read, the invariant is these two parts, if no valid success is held. -/
theorem inv_of_noReads (hinputs : InputsSound s.addrW s.buf s.bound)
    (hstatus : StatusSound s.respStatus s.respData s.stickyErr) (hreads : s.reads = [])
    (hanswer : s.respValid = true → s.respStatus ≠ statusOk) : Inv s where
  buf_canonical := hinputs.buf_canonical
  buf_in_space := hinputs.buf_in_space
  bound_fits := hinputs.bound_fits
  status_legal := hstatus.status_legal
  error_data := hstatus.error_data
  error_sticky := hstatus.error_sticky
  reads_below_bound := by simp [hreads]
  reads_of_success := by simp [hreads]
  reads_window := ⟨0, 0, by decide, hreads⟩
  data_width hvalid hok := absurd hok (hanswer hvalid)

/-- An idle edge gives the invariant: it reads nothing and leaves no valid response. -/
theorem inv_idleEdge (hinputs : InputsSound s.addrW s.buf s.bound)
    (hstatus : StatusSound s.respStatus s.respData s.stickyErr) : Inv s.idleEdge :=
  inv_of_noReads hinputs hstatus rfl (by simp)

/-- The reset edge gives the invariant, whatever the response and the flag were. -/
theorem inv_resetEdge (hinputs : InputsSound s.addrW s.buf s.bound) : Inv s.resetEdge :=
  inv_of_noReads hinputs (statusSound_ok _ _) rfl (by simp)

/-- A request that fails gives the invariant, whatever the response and the flag were. -/
theorem inv_raise (hinputs : InputsSound s.addrW s.buf s.bound) (c : ErrorCause) :
    Inv (s.beginEdge.raise c 0x00000000#32) :=
  inv_of_noReads hinputs (statusSound_code c) rfl (by simp)

/-- Every request gives the invariant, whatever the response and the flag were: an error reads nothing, and a success
reads its window, which fits below the effective bound and gives a value of its length (20_memory R39, 40_decode R63). -/
theorem inv_exec {i : Instr} {t : State} (h : exec i s = .next t)
    (hinputs : InputsSound s.addrW s.buf s.bound) : Inv t := by
  obtain ⟨-, rfl⟩ | ⟨-, -, rfl⟩ | ⟨⟨-, hlen⟩, hfit, rfl⟩ := exec_cases h
  · exact inv_raise hinputs .elen
  · exact inv_raise hinputs .ebound
  · refine
      { buf_canonical := hinputs.buf_canonical
        buf_in_space := hinputs.buf_in_space
        bound_fits := hinputs.bound_fits
        status_legal := statusOk_ne_reserved
        error_data := fun herr => absurd rfl herr
        error_sticky := fun herr => absurd rfl herr
        reads_below_bound := fun a ha => ?_
        reads_of_success := fun _ => ⟨rfl, rfl⟩
        reads_window := ⟨i.offset, i.len, hlen, rfl⟩
        data_width := fun _ _ => ?_ }
    · obtain ⟨-, hlt⟩ := List.mem_range'_1.mp ha
      exact Nat.lt_of_lt_of_le hlt hfit
    · rw [List.length_range']
      exact Document.windowValue_lt s.buf i.endian i.offset hlen

end Sys2Proof.Safety

namespace Sys2Proof.Proofs

open Sys2Proof.Machine

/-- Settles O46: every kind of edge gives the invariant from a sound buffer and bound, which a cycle's change keeps
sound; only the idle edge also needs the response and the flag it leaves alone to be sound. -/
theorem everyStepKeepsTheMachineSound : Obligations.EveryStepKeepsTheMachineSound := by
  intro s t hinv h
  have hinputs := hinv.inputsSound
  have hstatus := hinv.statusSound
  obtain ⟨-, rfl⟩ | ⟨p, rest, -, -, rfl⟩ | ⟨p, rest, -, -, hexec⟩ | ⟨p, ch, rest, -, -, hch, rfl⟩ |
    ⟨p, ch, rest, -, -, hch, rfl⟩ := step_cases h
  · exact Safety.inv_idleEdge hinputs hstatus
  · exact Safety.inv_resetEdge hinputs
  · exact Safety.inv_exec hexec hinputs
  · exact Safety.inv_resetEdge (hinputs.applyChange hch)
  · exact Safety.inv_idleEdge (hinputs.applyChange hch) hstatus

/-- Settles O47: the buffer is empty, the bound is 0, and there is no response and nothing read. -/
theorem theMachineIsSoundAfterReset : Obligations.TheMachineIsSoundAfterReset :=
  Safety.inv_of_noReads
    ⟨Memory.wf_nil, fun _ hc => absurd hc List.not_mem_nil, Nat.two_pow_pos _⟩
    (Safety.statusSound_ok _ _) rfl fun hvalid => absurd hvalid Bool.false_ne_true

/-! ### Requests, edges and runs -/

/-- Settles O34: a request leaves the buffer, the bound and `ADDR_W` as they were, which is all the next one's response
depends on; the flag collects the failures of both. -/
theorem earlierRequestsLeaveNothingBehind : Obligations.EarlierRequestsLeaveNothingBehind := by
  intro i j s t u v hst htu hsv
  obtain ⟨hbuf, hbound, haddrW, -⟩ := exec_keeps_inputs hst
  have hresponse : SameResponse u v := by
    rw [exec_eq_acceptRequest] at htu hsv
    rw [← Host.Outcome.next.inj htu, ← Host.Outcome.next.inj hsv]
    exact acceptRequest_sameResponse _ (by simp only [State.effectiveBound, hbound, haddrW])
      fun _ _ => by rw [hbuf]
  obtain ⟨hvalid, hdata, hstatus, hreads⟩ := hresponse
  refine ⟨hvalid, hdata, hstatus, hreads, ?_⟩
  rw [exec_stickyErr htu, exec_stickyErr hsv, exec_stickyErr hst, hstatus]
  cases s.stickyErr <;> simp

/-- Settles O37: the frame of a request, the frame of the idle edge, and that outside reset there is no third kind of
edge. -/
theorem anEdgeWritesOnlyWhatItOwns : Obligations.AnEdgeWritesOnlyWhatItOwns := by
  intro s t h
  refine ⟨fun p rest hi => exec_frame (i := s.sampled p) (clockEdge_of_step hi h), fun p ch rest hi => ?_,
    fun hrst hne => ?_⟩
  · obtain rfl := Host.Outcome.next.inj (clockEdge_of_step hi h)
    exact ⟨rfl, rfl, rfl, rfl, rfl, rfl⟩
  · rcases step_outside_reset h hrst with ⟨p, rest, hi, -⟩ | ⟨-, hdata, hstatus, hsticky⟩
    · exact ⟨_, rest, hi, rfl⟩
    · simp [hdata, hstatus, hsticky] at hne

/-- Settles O39: only the edge that accepts a request leaves a valid response. -/
theorem validMarksAcceptedRequests : Obligations.ValidMarksAcceptedRequests := by
  refine ⟨rfl, fun s t h => ⟨rfl, ?_⟩⟩
  obtain ⟨hi, rfl⟩ | ⟨p, rest, hi, -, rfl⟩ | ⟨p, rest, hi, -, hexec⟩ | ⟨p, ch, rest, hi, -, -, rfl⟩ |
    ⟨p, ch, rest, hi, -, -, rfl⟩ := step_cases h
  case inr.inr.inl => simp [hi, exec_respValid hexec]
  all_goals simp [hi]

/-- Settles O40: reset clears the flag, a request adds its failure to it, an idle edge leaves it alone. -/
theorem stickyFlagChangesOnlyByFailureOrReset : Obligations.StickyFlagChangesOnlyByFailureOrReset := by
  intro s t h
  obtain ⟨hi, rfl⟩ | ⟨p, rest, hi, -, rfl⟩ | ⟨p, rest, hi, -, hexec⟩ | ⟨p, ch, rest, hi, -, -, rfl⟩ |
    ⟨p, ch, rest, hi, -, -, rfl⟩ := step_cases h
  case inr.inr.inl =>
    have hsticky := exec_stickyErr hexec
    simp +contextual [hi, hsticky, statusOk]
  all_goals simp [hi]

end Sys2Proof.Proofs

namespace Sys2Proof.Machine

/-- Over one step outside reset the flag records whether the step left an error response (60_exceptions R82). -/
theorem step_stickyErr {s t : State} (h : step s = .next t)
    (hrst : ∀ c rest, s.inputs = c :: rest → c.rst = false) :
    t.stickyErr = true ↔ s.stickyErr = true ∨ Safety.FailedResponse t := by
  rcases step_outside_reset h hrst with ⟨p, rest, -, hexec⟩ | ⟨hvalid, -, -, hsticky⟩
  · simp [Safety.FailedResponse, exec_respValid hexec, exec_stickyErr hexec]
  · simp [Safety.FailedResponse, hvalid, hsticky]

/-- A run of one more step is the rest of the run from the state after the first. -/
theorem run_succ_of_step {s s' : State} (k : Nat) (h : step s = .next s') :
    Host.Core.run Sys2Proof.core (k + 1) s = Host.Core.run Sys2Proof.core k s' := by
  simp only [Host.Core.run, Sys2Proof.core, h]

/-- A run of one more step that goes on has a first step that goes on. -/
theorem exists_step_of_run_succ {k : Nat} {s t : State} (h : Host.Core.run Sys2Proof.core (k + 1) s = .next t) :
    ∃ s', step s = .next s' := by
  match hs : step s with
  | .next s' => exact ⟨s', rfl⟩
  | .fault r => simp [Host.Core.run, Sys2Proof.core, hs] at h
  | .refused r => simp [Host.Core.run, Sys2Proof.core, hs] at h

/-- Step `j` of the run from a state, counted from 0, leaves an error response. -/
def StepFails (s : State) (j : Nat) : Prop :=
  ∃ u : State, Host.Core.run Sys2Proof.core (j + 1) s = .next u ∧ Safety.FailedResponse u

theorem stepFails_zero {s s' : State} (h : step s = .next s') : StepFails s 0 ↔ Safety.FailedResponse s' := by
  constructor
  · rintro ⟨u, hu, hfails⟩
    rw [run_succ_of_step 0 h] at hu
    obtain rfl := Host.Outcome.next.inj hu
    exact hfails
  · exact fun hfails => ⟨s', run_succ_of_step 0 h, hfails⟩

theorem stepFails_succ {s s' : State} (h : step s = .next s') (j : Nat) : StepFails s (j + 1) ↔ StepFails s' j := by
  simp only [StepFails, run_succ_of_step (j + 1) h]

end Sys2Proof.Machine

namespace Sys2Proof.Proofs

open Sys2Proof.Machine

/-- Settles O41, by induction on the steps: the first step records its own failure, the rest of the run records the
others. -/
theorem stickyFlagRecordsEveryFailureOfARun : Obligations.StickyFlagRecordsEveryFailureOfARun := by
  intro k
  induction k with
  | zero =>
    intro s t h _
    obtain rfl := Host.Outcome.next.inj h
    simp
  | succ k ih =>
    intro s t h hrst
    obtain ⟨s', hstep⟩ := exists_step_of_run_succ h
    have hfirst : s'.stickyErr = true ↔ s.stickyErr = true ∨ StepFails s 0 := by
      rw [stepFails_zero hstep]
      exact step_stickyErr hstep fun c rest hi => hrst c (by simp [hi])
    have hrest : t.stickyErr = true ↔ s'.stickyErr = true ∨ ∃ j, j < k ∧ StepFails s (j + 1) := by
      simp only [stepFails_succ hstep]
      refine ih s' t (run_succ_of_step k hstep ▸ h) fun c hc => hrst c ?_
      rw [step_inputs hstep] at hc
      cases hi : s.inputs with
      | nil => simp [hi] at hc
      | cons d rest => exact List.mem_cons_of_mem d (by simpa [hi] using hc)
    calc t.stickyErr = true
        ↔ (s.stickyErr = true ∨ StepFails s 0) ∨ ∃ j, j < k ∧ StepFails s (j + 1) := by rw [hrest, hfirst]
      _ ↔ s.stickyErr = true ∨ ∃ j, j < k + 1 ∧ StepFails s j := by rw [or_assoc, Nat.exists_lt_succ_left]

/-! ### Reset values and output ports -/

/-- Settles O14: the reset state, field by field, and the fields the reset edge writes and leaves. -/
theorem resetValuesOfEveryPieceOfState : Obligations.ResetValuesOfEveryPieceOfState := by
  refine ⟨⟨rfl, rfl, rfl, rfl⟩, fun s => ⟨?written, ?kept⟩⟩
  case written =>
    exact ⟨s.resetEdge_respValid, s.resetEdge_respData, s.resetEdge_respStatus, s.resetEdge_stickyErr⟩
  case kept => exact ⟨s.resetEdge_buf, s.resetEdge_bound, s.resetEdge_inputs, s.resetEdge_addrW⟩

/-- Settles O15: the output ports are read off four fields, none of them an input. -/
theorem outputsAreDrivenByStateAlone : Obligations.OutputsAreDrivenByStateAlone :=
  fun _ => ⟨rfl, fun _ _ _ => rfl⟩

end Sys2Proof.Proofs
end

section
/-! The statements of 20_memory: the effective bound (R31), when a request succeeds (R35, R40), what it reads (R39),
that its answer repeats (R37), and that the block never writes the buffer or the bound (R38). -/

/-! ### What a request looks at, and what it leaves -/

namespace Sys2Proof.Machine

/-- A request succeeds exactly when its length is legal and its window fits below the effective bound
(40_decode R59). -/
theorem exec_respStatus_ok_iff {i : Instr} {s t : State} (h : exec i s = .next t) :
    t.respStatus = statusOk ↔ (1 ≤ i.len ∧ i.len ≤ 4) ∧ i.offset + i.len ≤ s.effectiveBound := by
  obtain ⟨hlen, rfl⟩ | ⟨-, hpast, rfl⟩ | ⟨hlen, hfit, rfl⟩ := exec_cases h
  · exact iff_of_false (ErrorCause.code_ne_ok .elen) fun ⟨hlegal, _⟩ => by omega
  · exact iff_of_false (ErrorCause.code_ne_ok .ebound) fun ⟨_, hfit⟩ => by omega
  · exact iff_of_true rfl ⟨hlen, hfit⟩

/-- A request that succeeds reads its window, in rising order (20_memory R39). -/
theorem exec_reads_of_ok {i : Instr} {s t : State} (h : exec i s = .next t) (hok : t.respStatus = statusOk) :
    t.reads = List.range' i.offset i.len := by
  obtain ⟨-, rfl⟩ | ⟨-, -, rfl⟩ | ⟨-, -, rfl⟩ := exec_cases h
  · exact absurd hok (ErrorCause.code_ne_ok .elen)
  · exact absurd hok (ErrorCause.code_ne_ok .ebound)
  · rfl

/-- A request that fails reads no address, not even those of its window below the bound (20_memory R39). -/
theorem exec_reads_of_failed {i : Instr} {s t : State} (h : exec i s = .next t) (hfailed : t.respStatus ≠ statusOk) :
    t.reads = [] := by
  obtain ⟨-, rfl⟩ | ⟨-, -, rfl⟩ | ⟨-, -, rfl⟩ := exec_cases h
  · rfl
  · rfl
  · exact absurd rfl hfailed

/-- A request sees `BOUND` through the effective bound alone: under another bound with the same effective bound it does
the same, and the bound stays what it is. -/
theorem exec_with_bound {i : Instr} {s t : State} {b : Nat} (h : exec i s = .next t)
    (heb : State.effectiveBound { s with bound := b } = s.effectiveBound) :
    exec i { s with bound := b } = .next { t with bound := b } := by
  obtain ⟨hlen, rfl⟩ | ⟨hlen, hpast, rfl⟩ | ⟨hlen, hfit, rfl⟩ := exec_cases h
  · exact exec_elen _ hlen
  · exact exec_ebound hlen (heb ▸ hpast)
  · exact exec_ok hlen (heb ▸ hfit)

/-- A request repeated at once changes nothing more: what it wrote it writes again, and it looks at none of that
(20_memory R37). -/
theorem exec_again {i : Instr} {s t : State} (h : exec i s = .next t) : exec i t = .next t := by
  obtain ⟨hlen, rfl⟩ | ⟨hlen, hpast, rfl⟩ | ⟨hlen, hfit, rfl⟩ := exec_cases h
  · exact exec_elen _ hlen
  · exact exec_ebound hlen hpast
  · exact exec_ok hlen hfit

/-- In a cycle without a request the buffer and the bound become what the environment makes them, in reset or outside it
(70_reset_and_hazards R98). -/
theorem step_buf_bound_of_quiet {s t : State} {r : Bool} {p : Ports} {ch : Change} {rest : List ClockCycle}
    (h : step s = .next t) (hi : s.inputs = .quiet r p ch :: rest) :
    t.buf = s.buf.fill ch.fill ∧ t.bound = ch.bound.getD s.bound := by
  have hedge := clockEdge_of_step hi h
  cases r
  all_goals
    obtain rfl := Host.Outcome.next.inj hedge
    exact ⟨rfl, rfl⟩

/-- A step whose next cycle presents a request, in reset or outside it, or that has no listed cycle, leaves the buffer
and the bound as they were (20_memory R38). -/
theorem step_keeps_buf_bound {s t : State} (h : step s = .next t)
    (hquiet : ∀ r p ch rest, s.inputs ≠ .quiet r p ch :: rest) : t.buf = s.buf ∧ t.bound = s.bound := by
  obtain ⟨-, rfl⟩ | ⟨p, rest, -, -, rfl⟩ | ⟨p, rest, -, -, hexec⟩ | ⟨p, ch, rest, hi, -, -, -⟩ |
    ⟨p, ch, rest, hi, -, -, -⟩ := step_cases h
  · exact ⟨rfl, rfl⟩
  · exact ⟨rfl, rfl⟩
  · obtain ⟨hbuf, hbound, -, -⟩ := exec_keeps_inputs hexec
    exact ⟨hbuf, hbound⟩
  · exact absurd hi (hquiet _ _ _ _)
  · exact absurd hi (hquiet _ _ _ _)

end Sys2Proof.Machine

/-! ### The statements -/

namespace Sys2Proof.Proofs

open Sys2Proof.Machine

/-- Settles O26: every request is the common step, which always answers, and its status is read off the length and the
window. -/
theorem aRequestSucceedsExactlyWhenItsWindowFits : Obligations.ARequestSucceedsExactlyWhenItsWindowFits := by
  intro i s
  have h := exec_eq_acceptRequest i s
  exact ⟨_, h, exec_respValid h, exec_respStatus_ok_iff h⟩

/-- Settles O27: a bound of at least `2^ADDR_W` has the effective bound `2^ADDR_W`, which is all a request sees of it;
under the bound 0 no window of a legal length fits. -/
theorem effectiveBoundIsTheSmallerBound : Obligations.EffectiveBoundIsTheSmallerBound := by
  refine ⟨fun s => rfl, fun i s t b hb h => exec_with_bound (s := { s with bound := 2 ^ s.addrW }) h ?saturated,
    fun i s hlow hhigh hzero => ?empty⟩
  case saturated => simp only [State.effectiveBound, Nat.min_self, Nat.min_eq_right hb]
  case empty =>
    have heb : s.effectiveBound = 0 := by rw [State.effectiveBound, hzero, Nat.zero_min]
    exact exec_ebound ⟨hlow, hhigh⟩ (by omega)

/-- Settles O32: the reads of a success are its window, which fits below the effective bound; a failure has none. -/
theorem aRequestReadsExactlyItsWindow : Obligations.ARequestReadsExactlyItsWindow := by
  intro i s t h
  refine ⟨fun hok => ?success, exec_reads_of_failed h⟩
  case success =>
    obtain ⟨-, hfit⟩ := (exec_respStatus_ok_iff h).mp hok
    have hwindow (a : Nat) : a ∈ t.reads ↔ i.offset ≤ a ∧ a < i.offset + i.len := by
      rw [exec_reads_of_ok h hok, List.mem_range'_1]
    exact ⟨hwindow, fun a ha => Nat.lt_of_lt_of_le ((hwindow a).mp ha).2 hfit⟩

/-- Settles O35: a request keeps the buffer and repeats itself, and its response depends on nothing but the buffer and
the effective bound. -/
theorem repeatingARequestRepeatsTheAnswer : Obligations.RepeatingARequestRepeatsTheAnswer := by
  refine ⟨fun i s t h => ⟨?kept, exec_again h⟩, fun i s s' hbuf hbound haddrW => ?same⟩
  case kept =>
    obtain ⟨hbuf, -, -, -⟩ := exec_keeps_inputs h
    exact hbuf
  case same =>
    have heb : s.effectiveBound = s'.effectiveBound := by simp only [State.effectiveBound, hbound, haddrW]
    obtain ⟨hvalid, hdata, hstatus, -⟩ :=
      acceptRequest_sameResponse i.endian (len := BitVec.ofNat 3 i.len) (o := i.offset) heb fun _ _ => by rw [hbuf]
    exact ⟨_, _, exec_eq_acceptRequest i s, exec_eq_acceptRequest i s', hvalid, hdata, hstatus⟩

/-- Settles O36: a request keeps the buffer and the bound, and so does every step but that of a cycle without a request,
where both become what the environment makes them. -/
theorem theBlockNeverWritesBufferOrBound : Obligations.TheBlockNeverWritesBufferOrBound := by
  refine ⟨fun i s t h => ?request, fun s t h =>
    ⟨fun _ _ _ _ hi => step_buf_bound_of_quiet h hi, step_keeps_buf_bound h⟩⟩
  case request =>
    obtain ⟨hbuf, hbound, -, -⟩ := exec_keeps_inputs h
    exact ⟨fun a => by rw [hbuf], hbuf, hbound⟩

end Sys2Proof.Proofs
end

section
/-! The statements of 30_encoding: decode and encode (R47, R48, R50, R55), the opcode table (R53), the assembler's lines
and pseudo-instructions (R56, R57), and that a step runs the request its ports carry (R46). -/

/-! ### The command nibble -/

namespace Sys2Proof

/-- The request a command nibble `{endian, len}` and an offset name (30_encoding R50). -/
def Instr.ofNibble (k : BitVec 4) (o : Nat) : Instr :=
  Instr.ofFields (Endian.ofBit (k.extractLsb' 3 1)) (k.extractLsb' 0 3) o

/-- The decode looks at `req[3:0]` to choose the operation, and at the rest of the word for the offset alone
(30_encoding R55). -/
theorem decode_eq_ofNibble {addrW : Nat} (w : BitVec (addrW + 4)) :
    decode w = Instr.ofNibble (w.extractLsb' 0 4) (offsetField w) := by
  have hendian : (w.extractLsb' 0 4).extractLsb' 3 1 = endianField w :=
    BitVec.extractLsb'_extractLsb'_of_le (by decide)
  have hlen : (w.extractLsb' 0 4).extractLsb' 0 3 = lenField w := BitVec.extractLsb'_extractLsb'_of_le (by decide)
  rw [Instr.ofNibble, hendian, hlen, decode]

/-- The word with an offset above a command nibble decodes to the request of the two. -/
theorem decode_append {addrW : Nat} (o : BitVec addrW) (k : BitVec 4) : decode (o ++ k) = Instr.ofNibble k o.toNat := by
  rw [decode_eq_ofNibble, BitVec.extractLsb'_append_eq_right, offsetField, BitVec.extractLsb'_append_eq_left]

/-- The high bit of a request's nibble is its byte order (30_encoding R47). -/
theorem Instr.nibble_high (i : Instr) : i.nibble.extractLsb' 3 1 = i.endian.bit := by
  have he := i.endian.bit.isLt
  have hn := i.len_lt
  apply BitVec.eq_of_toNat_eq
  rw [BitVec.extractLsb'_toNat, Nat.shiftRight_eq_div_pow, i.nibble_toNat]
  omega

/-- The low bits of a request's nibble are its length (30_encoding R47). -/
theorem Instr.nibble_low (i : Instr) : i.nibble.extractLsb' 0 3 = BitVec.ofNat 3 i.len := by
  apply BitVec.eq_of_toNat_eq
  rw [BitVec.extractLsb'_toNat, Nat.shiftRight_zero, i.nibble_toNat, BitVec.toNat_ofNat]
  omega

/-- A request is named by its own nibble and offset. -/
theorem Instr.ofNibble_nibble (i : Instr) : Instr.ofNibble i.nibble i.offset = i := by
  rw [Instr.ofNibble, Instr.nibble_high, Instr.nibble_low, Endian.ofBit_bit, Instr.ofFields_fields]

/-- The request a nibble names has that nibble: no two nibbles share a meaning (30_encoding R50). -/
@[simp] theorem Instr.nibble_ofNibble (k : BitVec 4) (o : Nat) : (Instr.ofNibble k o).nibble = k := by
  obtain ⟨k⟩ := k
  fin_cases k <;> rfl

@[simp] theorem Instr.offset_ofNibble (k : BitVec 4) (o : Nat) : (Instr.ofNibble k o).offset = o :=
  Instr.offset_ofFields _ _ _

@[simp] theorem Instr.endian_ofNibble (k : BitVec 4) (o : Nat) :
    (Instr.ofNibble k o).endian = Endian.ofBit (k.extractLsb' 3 1) := Instr.endian_ofFields _ _ _

@[simp] theorem Instr.len_ofNibble (k : BitVec 4) (o : Nat) :
    (Instr.ofNibble k o).len = (k.extractLsb' 0 3).toNat := Instr.len_ofFields _ _ _

/-- The offset has no part in the mnemonic. -/
theorem Instr.mnemonic_ofNibble (k : BitVec 4) (o o' : Nat) :
    (Instr.ofNibble k o).mnemonic = (Instr.ofNibble k o').mnemonic := by
  obtain ⟨k⟩ := k
  fin_cases k <;> rfl

/-- The number a packed word stands for (30_encoding R47). -/
theorem encode_toNat {addrW : Nat} {i : Instr} (h : i.wf addrW = true) :
    (encode addrW i).toNat = i.offset * 16 + i.endian.bit.toNat * 8 + i.len :=
  Laws.PackedValue.of_nibble i addrW h

/-- Three fields side by side are their shifts, ored (30_encoding R48). -/
theorem fields_eq_shifts_or (o : Nat) {e n : Nat} (he : e < 2) (hn : n < 8) :
    o * 16 + e * 8 + n = o <<< 4 ||| e <<< 3 ||| n := by
  have hlow : e <<< 3 ||| n = e * 8 + n := by rw [← Nat.shiftLeft_add_eq_or_of_lt hn, Nat.shiftLeft_eq]
  have hfits : e * 8 + n < 2 ^ 4 := by omega
  rw [Nat.or_assoc, hlow, ← Nat.shiftLeft_add_eq_or_of_lt hfits, Nat.shiftLeft_eq, Nat.add_assoc]

/-- A row of the opcode table fixes bits of `req[3:0]` only (30_encoding R53). -/
theorem OpcodeRow.covers_nibble {r : OpcodeRow} (hr : r ∈ opcodeTable) (w : BitVec 32) :
    r.covers w = r.covers ((w.extractLsb' 0 4).setWidth 32) := by
  have hmask : r.mask = 0xF#32 &&& r.mask := by
    revert r
    decide
  have hlow : w &&& 0xF#32 = (w.extractLsb' 0 4).setWidth 32 &&& 0xF#32 := by
    apply BitVec.eq_of_toNat_eq
    have hand (n : Nat) : n &&& 15 = n % 16 := Nat.and_two_pow_sub_one_eq_mod n 4
    simp [hand]
  rw [covers, covers, hmask, ← BitVec.and_assoc, hlow, BitVec.and_assoc]

/-- Row by row and nibble by nibble, the table and the decoder agree (30_encoding R50). -/
theorem OpcodeRow.covers_iff_mnemonic : ∀ r ∈ opcodeTable, ∀ k : BitVec 4,
    (r.covers (k.setWidth 32) = true ↔ (Instr.ofNibble k 0).mnemonic = r.mnemonic) := by
  decide

end Sys2Proof

/-! ### Decode and encode -/

namespace Sys2Proof.Proofs

open Sys2Proof.Machine

/-- Settles O1: the packed word is the offset above the nibble, the offset fits its field, and the two name the
request. -/
theorem decodeOfEncodeGivesTheRequest : Obligations.DecodeOfEncodeGivesTheRequest := by
  intro addrW i h
  have ho : i.offset < 2 ^ addrW := of_decide_eq_true h
  rw [encode, decode_append, BitVec.toNat_ofNat, Nat.mod_eq_of_lt ho, Instr.ofNibble_nibble]

/-- Settles O2: the request of a word has the word's offset and the word's nibble, and encode puts them side by side
again. -/
theorem encodeOfDecodeGivesTheWord : Obligations.EncodeOfDecodeGivesTheWord := by
  intro addrW w
  rw [decode_eq_ofNibble]
  refine ⟨?fits, ?word⟩
  case fits =>
    rw [Instr.wf, Instr.offset_ofNibble]
    exact decide_eq_true (offsetField_lt w)
  case word =>
    rw [encode, Instr.offset_ofNibble, Instr.nibble_ofNibble, offsetField, BitVec.ofNat_toNat, BitVec.setWidth_eq,
      BitVec.extractLsb'_append_extractLsb']

/-- Settles O3: both requests are named by the one nibble, and a length outside 1 to 4 answers ELEN. -/
theorem decodeLooksAtTheCommandNibbleOnly : Obligations.DecodeLooksAtTheCommandNibbleOnly := by
  intro addrW addrW' w w' hnibble
  rw [decode_eq_ofNibble w, decode_eq_ofNibble w', hnibble]
  refine ⟨Instr.mnemonic_ofNibble _ _ _, by simp, by simp, ?_⟩
  rw [or_iff_not_imp_left]
  exact fun hlen s => exec_elen s (by omega)

/-- Settles O4: a nibble and an offset name their request row by row, and the lengths of the illegal rows answer ELEN. -/
theorem theSixteenNibblesSelectTheRequests : Obligations.TheSixteenNibblesSelectTheRequests := by
  intro addrW o
  simp only [decode_append]
  refine ⟨rfl, rfl, rfl, rfl, rfl, rfl, rfl, rfl, rfl, rfl, rfl, rfl, rfl, rfl, rfl, rfl, fun k hk s => exec_elen s ?_⟩
  rw [Instr.len_ofNibble]
  revert k
  decide

/-- Settles O5: the offset and the nibble are read back off the word, and as numbers the fields side by side are their
shifts, ored. -/
theorem packedWordIsShiftedFieldsOred : Obligations.PackedWordIsShiftedFieldsOred := by
  refine ⟨rfl, fun i h w hw => ?_⟩
  subst hw
  refine ⟨BitVec.extractLsb'_append_eq_left, ?endian, ?len, ?word⟩
  case endian => exact (BitVec.extractLsb'_append_eq_of_add_le (by decide)).trans i.nibble_high
  case len => exact (BitVec.extractLsb'_append_eq_of_add_le (by decide)).trans i.nibble_low
  case word =>
    have ho : i.offset < 2 ^ 28 := of_decide_eq_true h
    have he := i.endian.bit.isLt
    have hn := i.len_lt
    apply BitVec.eq_of_toNat_eq
    rw [encode_toNat h, fields_eq_shifts_or _ he hn]
    simp only [BitVec.toNat_or, BitVec.toNat_shiftLeft, BitVec.toNat_setWidth, BitVec.toNat_ofNat, Nat.shiftLeft_eq]
    congr 2 <;> omega

/-- Settles O6: a row and the decoder's mnemonic look at the command nibble alone, and agree on all sixteen. -/
theorem opcodeTableRowsMatchExactlyTheirInstruction : Obligations.OpcodeTableRowsMatchExactlyTheirInstruction := by
  intro w r hr
  rw [OpcodeRow.covers_nibble hr, decode_eq_ofNibble (addrW := 28), Instr.mnemonic_ofNibble _ _ 0]
  exact OpcodeRow.covers_iff_mnemonic r hr _

/-- Settles O7: the decoder is evaluated at each listed word. -/
theorem listedWordsDecodeToTheirRequests : Obligations.ListedWordsDecodeToTheirRequests := by
  unfold Obligations.ListedWordsDecodeToTheirRequests
  decide

end Sys2Proof.Proofs

/-! ### The assembler -/

namespace Sys2Proof.Machine

/-- A window of one byte reads alike in both byte orders (40_decode R75). -/
theorem State.decodeWindow_one (s : State) (e e' : Endian) (o : Nat) : s.decodeWindow e o 1 = s.decodeWindow e' o 1 := by
  cases e <;> cases e' <;> rfl

/-- A request of one byte has one meaning, whatever its byte order (30_encoding R57). -/
theorem exec_decLe1_eq_decBe1 (o : Nat) (s : State) : exec (.decLe1 o) s = exec (.decBe1 o) s := by
  have hone : (1#3).toNat = 1 := rfl
  simp only [exec, execDecLe1, execDecBe1, State.acceptRequest, hone, s.beginEdge.decodeWindow_one .little .big]

end Sys2Proof.Machine

namespace Sys2Proof.Proofs

open Sys2Proof.Machine

/-- Settles O8: a pseudo-instruction assembles to the word of the request it expands to, and a single byte has no
order. -/
theorem pseudoInstructionsNameTheirRequests : Obligations.PseudoInstructionsNameTheirRequests :=
  fun _ o => ⟨rfl, rfl, rfl, rfl, rfl, rfl, rfl, exec_decLe1_eq_decBe1 o⟩

/-- Settles O9: a line's word is the packed word of the request of its fields, and its cycle carries that word. -/
theorem listingLinesAssembleToTheirWords : Obligations.ListingLinesAssembleToTheirWords := by
  intro addrW e n o h
  have hwf : (Instr.ofFields e n o).wf addrW = true := by rwa [Instr.wf, Instr.offset_ofFields]
  refine ⟨encode addrW (Instr.ofFields e n o), rfl, ?_, ⟨_, rfl, Ports.wf_ofWord _, Ports.pack_ofWord _⟩, rfl, rfl, rfl⟩
  rw [encode_toNat hwf, Instr.offset_ofFields, Instr.endian_ofFields, Instr.len_ofFields]

end Sys2Proof.Proofs

/-! ### The step -/

namespace Sys2Proof.Machine

/-- A step whose next cycle presents a request outside reset is the meaning of the request the ports decode to
(30_encoding R46, R47). -/
theorem step_eq_exec_decode {s : State} {p : Ports} {rest : List ClockCycle} (hi : s.inputs = .request false p :: rest)
    (hp : p.wf s.addrW = true) : step s = exec (decode (p.pack s.addrW)) { s with inputs := rest } := by
  rw [step_of_request hi hp, decode_pack hp, exec_ofFields]

/-- A step with a presented word is the meaning of the request it decodes to. -/
theorem step_present (s : State) (w : BitVec (s.addrW + 4)) : step (s.present w) = exec (decode w) s := by
  have h := step_eq_exec_decode (s.present_inputs w) (Ports.wf_ofWord w)
  rwa [State.present_addrW, Ports.pack_ofWord] at h

/-- An edge always goes on: every request is answered, and the other edges are not requests. -/
theorem clockEdge_goes_on (s : State) (c : ClockCycle) : ∃ t, s.clockEdge c = .next t := by
  match c with
  | .request true _ => exact ⟨_, rfl⟩
  | .request false p => exact ⟨_, exec_eq_acceptRequest (s.sampled p) s⟩
  | .quiet true _ _ => exact ⟨_, rfl⟩
  | .quiet false _ _ => exact ⟨_, rfl⟩

/-- A step whose next cycle drives what no port carries stops (log entry 7). -/
theorem step_of_undrivable {s : State} {c : ClockCycle} {rest : List ClockCycle} (hi : s.inputs = c :: rest)
    (hc : c.wf s.addrW = false) : step s = .fault .undrivableInput := by
  simp [step, State.nextEdge, hi, hc]

/-- A step whose next cycle, if one is listed, can be driven goes on (70_reset_and_hazards R101). -/
theorem step_goes_on {s : State} (h : ∀ c rest, s.inputs = c :: rest → c.wf s.addrW = true) : ∃ t, step s = .next t := by
  cases hi : s.inputs with
  | nil => exact ⟨s.idleEdge, by simp [step, State.nextEdge, hi]⟩
  | cons c rest =>
    obtain ⟨t, ht⟩ := clockEdge_goes_on { s with inputs := rest } c
    exact ⟨t, by simp [step, State.nextEdge, hi, h c rest hi, ht]⟩

end Sys2Proof.Machine

namespace Sys2Proof.Proofs

open Sys2Proof.Machine

/-- Settles O10: a step runs the request its ports decode to, which for the packed word of a request is that request
(O1). -/
theorem stepRunsTheDecodedRequest : Obligations.StepRunsTheDecodedRequest := by
  refine ⟨fun s i p rest hi hp hwf hpack => ?_, fun s p rest hi hp => step_eq_exec_decode hi hp, step_present⟩
  rw [step_eq_exec_decode hi hp, hpack, decodeOfEncodeGivesTheRequest s.addrW i hwf]

/-- Settles O43: with an undrivable next cycle a step stops with the fault, and in every other state it goes on. -/
theorem aStepStopsOnlyOnUndrivableInput : Obligations.AStepStopsOnlyOnUndrivableInput := by
  intro s
  by_cases hbad : ∃ c rest, s.inputs = c :: rest ∧ c.wf s.addrW = false
  · obtain ⟨c, rest, hi, hc⟩ := hbad
    have hstep := step_of_undrivable hi hc
    exact ⟨iff_of_true hstep ⟨c, rest, hi, hc⟩, fun r => by simp [hstep]⟩
  · obtain ⟨t, hstep⟩ : ∃ t, step s = .next t :=
      step_goes_on fun c rest hi => Bool.eq_true_of_not_eq_false fun hc => hbad ⟨c, rest, hi, hc⟩
    exact ⟨iff_of_false (by simp [hstep]) hbad, fun r => by simp [hstep]⟩

end Sys2Proof.Proofs
end

section
/-! The statements of 40_decode: the value of a window (R63, R64, R74, R75), the eight requests of legal length
(R65 to R72), and the idle edge (R73). -/

/-! ### The lanes of a value -/

namespace Sys2Proof.Document

/-- The byte of weight `2^(8k)` in a little-endian value is byte `k` of the window, and 0 above the window. -/
theorem valueOf_little_lane (window : List Byte) (k : Nat) :
    valueOf .little window / 2 ^ (8 * k) % 2 ^ 8 = (window.getD k 0x00#8).toNat := by
  induction window generalizing k with
  | nil => simp [valueOf]
  | cons b window ih =>
    have hb := b.isLt
    have hcons : valueOf .little (b :: window) = valueOf .little window * 2 ^ 8 + b.toNat := rfl
    rw [hcons]
    cases k with
    | zero =>
      rw [List.getD_cons_zero]
      omega
    | succ k =>
      have hdrop : (valueOf .little window * 2 ^ 8 + b.toNat) / 2 ^ 8 = valueOf .little window := by omega
      rw [List.getD_cons_succ, ← ih, Nat.mul_succ, Nat.pow_add', ← Nat.div_div_eq_div_mul, hdrop]

/-- The first byte of a little-endian window has weight 1, the others weigh one byte more than without it. -/
theorem valueOf_little_range_succ (f : Nat → Byte) (n : Nat) :
    valueOf .little ((List.range (n + 1)).map f) =
      valueOf .little ((List.range n).map fun i => f (i + 1)) * 2 ^ 8 + (f 0).toNat := by
  rw [List.range_succ_eq_map, List.map_cons, List.map_map]
  rfl

/-- A little-endian value is the sum of its bytes, weighed (40_decode R63). -/
theorem valueOf_little_range (f : Nat → Byte) (n : Nat) :
    valueOf .little ((List.range n).map f) = ∑ i ∈ Finset.range n, (f i).toNat * 2 ^ (8 * i) := by
  induction n generalizing f with
  | zero => rfl
  | succ n ih =>
    have hweight (i : Nat) : (f (i + 1)).toNat * 2 ^ (8 * i) * 2 ^ 8 = (f (i + 1)).toNat * 2 ^ (8 * (i + 1)) := by
      rw [Nat.mul_succ, Nat.pow_add, Nat.mul_assoc]
    rw [valueOf_little_range_succ, ih, Finset.sum_range_succ', Finset.sum_mul, Nat.mul_zero, Nat.pow_zero, Nat.mul_one]
    simp only [hweight]

/-- The bytes of a number, least significant first, weigh up to the number reduced to their width. -/
theorem valueOf_little_bytes (v n : Nat) :
    valueOf .little ((List.range n).map fun i => BitVec.ofNat 8 (v / 2 ^ (8 * i))) = v % 2 ^ (8 * n) := by
  induction n generalizing v with
  | zero => rw [Nat.mul_zero, Nat.pow_zero, Nat.mod_one]; rfl
  | succ n ih =>
    have hrest (i : Nat) : v / 2 ^ (8 * (i + 1)) = v / 2 ^ 8 / 2 ^ (8 * i) := by
      rw [Nat.mul_succ, Nat.pow_add', Nat.div_div_eq_div_mul]
    have hfirst : (BitVec.ofNat 8 (v / 2 ^ (8 * 0))).toNat = v % 2 ^ 8 := by
      rw [Nat.mul_zero, Nat.pow_zero, Nat.div_one, BitVec.toNat_ofNat]
    rw [valueOf_little_range_succ, hfirst]
    simp only [hrest]
    rw [ih, Nat.mul_succ, Nat.pow_add', Nat.mod_mul, Nat.mul_comm, Nat.add_comm]

end Sys2Proof.Document

namespace Sys2Proof.Machine

/-- The place in a window of `n` bytes that goes to lane `k` of the result (40_decode R64). -/
def laneSource (e : Endian) (n k : Nat) : Nat :=
  match e with
  | .little => k
  | .big => n - 1 - k

/-- The loop takes the lanes from the most significant one down (40_decode R60, R61). -/
theorem loopOrder_eq_lanes (e : Endian) (n : Nat) : (loopOrder e n).reverse = (List.range n).map (laneSource e n) := by
  cases e with
  | little => exact (List.reverse_reverse _).trans (List.map_id _).symm
  | big =>
    apply List.ext_getElem
    · simp [loopOrder]
    · intro k _ _
      simp [loopOrder, laneSource]

/-- Every lane below `n` comes from a place of the window. -/
theorem laneSource_lt (e : Endian) {n k : Nat} (h : k < n) : laneSource e n k < n := by
  cases e with
  | little => exact h
  | big => simp only [laneSource]; omega

/-- A place goes to the lane whose source it is. -/
theorem laneSource_laneSource (e : Endian) {n k : Nat} (h : k < n) : laneSource e n (laneSource e n k) = k := by
  cases e with
  | little => rfl
  | big => simp only [laneSource]; omega

/-- The value of a window is the little-endian value of its lanes. -/
theorem Memory.windowValue_eq_lanes (m : Memory) (e : Endian) (o : Nat) {n : Nat} (hn : n ≤ 4) :
    (m.windowValue e o n).toNat =
      Document.valueOf .little ((List.range n).map fun k => m.read (o + laneSource e n k)) := by
  have hlength : (loopOrder e n).length ≤ 4 := by
    rwa [← List.length_reverse, loopOrder_eq_lanes, List.length_map, List.length_range]
  calc (m.windowValue e o n).toNat
      = Document.valueOf .big ((loopOrder e n).map fun i => m.read (o + i)) := Document.accumulated_toNat m o _ hlength
    _ = Document.valueOf .little ((loopOrder e n).reverse.map fun i => m.read (o + i)) := by
        rw [Document.valueOf_little, List.map_reverse, List.reverse_reverse]
    _ = _ := by rw [loopOrder_eq_lanes, List.map_map]; rfl

/-- Lane `k` of the value of a window (40_decode R64). -/
theorem Memory.windowValue_lane (m : Memory) (e : Endian) (o k : Nat) {n : Nat} (hn : n ≤ 4) :
    (m.windowValue e o n).extractLsb' (8 * k) 8 = if k < n then m.read (o + laneSource e n k) else 0x00#8 := by
  apply BitVec.eq_of_toNat_eq
  rw [BitVec.extractLsb'_toNat, Nat.shiftRight_eq_div_pow, m.windowValue_eq_lanes e o hn, Document.valueOf_little_lane]
  split
  case isTrue hk => simp [hk]
  case isFalse hk => simp [hk]

/-- The value the little-endian loop answers. -/
theorem State.decodeLE_fst (s : State) (o n : Nat) : (s.decodeLE o n).1 = s.buf.windowValue .little o n := by
  rw [State.decodeLE, State.accumulate_eq, Memory.windowValue, loopOrder]

/-- The value the big-endian loop answers. -/
theorem State.decodeBE_fst (s : State) (o n : Nat) : (s.decodeBE o n).1 = s.buf.windowValue .big o n := by
  rw [State.decodeBE, State.accumulate_eq, Memory.windowValue, loopOrder]

/-- A window filled byte by byte reads as it was filled. -/
theorem Memory.read_fill_window {m : Memory} (h : m.wf) (o : Nat) (f : Nat → Byte) {n i : Nat} (hi : i < n) :
    (m.fill ((List.range n).map fun i => (o + i, f i))).read (o + i) = f i := by
  induction n with
  | zero => omega
  | succ n ih =>
    have hlast : m.fill ((List.range (n + 1)).map fun i => (o + i, f i)) =
        (m.fill ((List.range n).map fun i => (o + i, f i))).write (o + n) (f n) := by
      rw [List.range_succ, List.map_append, Memory.fill, List.foldl_append]
      rfl
    rw [hlast]
    by_cases hn : i = n
    · rw [hn, Memory.read_write_same (Memory.wf_fill h _)]
    · rw [Memory.read_write_other _ (by omega), ih (by omega)]

/-- The bytes that make a window of `n` bytes at `o` have the value `v`. -/
def windowOf (e : Endian) (o n v : Nat) : List Host.Cell :=
  (List.range n).map fun i => (o + i, BitVec.ofNat 8 (v / 2 ^ (8 * laneSource e n i)))

/-- They lie in the window. -/
theorem windowOf_in_window {e : Endian} {o n v : Nat} {c : Host.Cell} (h : c ∈ windowOf e o n v) :
    o ≤ c.1 ∧ c.1 < o + n := by
  obtain ⟨i, hi, rfl⟩ := List.mem_map.mp h
  have hlt := List.mem_range.mp hi
  exact ⟨Nat.le_add_right o i, Nat.add_lt_add_left hlt o⟩

/-- A buffer with those bytes written has the value there (40_decode R74). -/
theorem Memory.windowValue_fill_windowOf {m : Memory} (h : m.wf) (e : Endian) (o : Nat) {n v : Nat} (hn : n ≤ 4)
    (hv : v < 2 ^ (8 * n)) : ((m.fill (windowOf e o n v)).windowValue e o n).toNat = v := by
  have hlanes : (List.range n).map (fun k => (m.fill (windowOf e o n v)).read (o + laneSource e n k)) =
      (List.range n).map fun k => BitVec.ofNat 8 (v / 2 ^ (8 * k)) := by
    refine List.map_congr_left fun k hk => ?_
    have hlt := List.mem_range.mp hk
    rw [windowOf, Memory.read_fill_window h o _ (laneSource_lt e hlt), laneSource_laneSource e hlt]
  rw [Memory.windowValue_eq_lanes _ e o hn, hlanes, Document.valueOf_little_bytes, Nat.mod_eq_of_lt hv]

end Sys2Proof.Machine

namespace Sys2Proof.Proofs

open Sys2Proof.Machine

/-- Settles O28: both values weigh their lanes; counted from the other end, the big-endian lanes are the places of the
window. -/
theorem decodedValuesAreWeightedByteSums : Obligations.DecodedValuesAreWeightedByteSums := by
  intro s o n _ hn
  rw [s.decodeLE_fst, s.decodeBE_fst]
  refine ⟨?little, ?big, Document.windowValue_lt _ _ o hn, Document.windowValue_lt _ _ o hn⟩
  case little => rw [Memory.windowValue_eq_lanes _ _ o hn, Document.valueOf_little_range]; rfl
  case big =>
    rw [Memory.windowValue_eq_lanes _ _ o hn, Document.valueOf_little_range, ← Finset.sum_range_reflect]
    refine Finset.sum_congr rfl fun i hi => ?_
    have hplace : laneSource .big n (n - 1 - i) = i := laneSource_laneSource .big (Finset.mem_range.mp hi)
    rw [hplace]

/-- Settles O29: the lanes of the two values. -/
theorem decodeIsAByteLaneMultiplexer : Obligations.DecodeIsAByteLaneMultiplexer := by
  intro s o n k _ hn _
  rw [s.decodeLE_fst, s.decodeBE_fst]
  exact ⟨s.buf.windowValue_lane .little o k hn, s.buf.windowValue_lane .big o k hn⟩

/-- Settles O30: the two orders take the same lanes from mirrored places. -/
theorem byteOrdersMirrorEachOther : Obligations.ByteOrdersMirrorEachOther := by
  refine ⟨fun s s' o o' n hn hmirror => ?reversed, fun s o => exec_decLe1_eq_decBe1 o s, fun s o k hk => ?swapped⟩
  case reversed =>
    rw [s.decodeLE_fst, s'.decodeBE_fst]
    apply BitVec.eq_of_toNat_eq
    rw [Memory.windowValue_eq_lanes _ _ o hn, Memory.windowValue_eq_lanes _ _ o' hn]
    exact congrArg _ (List.map_congr_left fun k hk => hmirror k (List.mem_range.mp hk))
  case swapped =>
    rw [s.decodeLE_fst, s.decodeBE_fst, s.buf.windowValue_lane .big o k (Nat.le_refl 4),
      s.buf.windowValue_lane .little o (3 - k) (Nat.le_refl 4), if_pos hk, if_pos (by omega)]
    rfl

/-- Settles O31: the window is filled with the bytes of the value, each at the place its lane comes from. -/
theorem everyValueOfTheWidthIsReached : Obligations.EveryValueOfTheWidthIsReached := by
  intro s e len o v hwf hlow hhigh hfit hv
  have hok := State.acceptRequest_ok { s with buf := s.buf.fill (windowOf e o len.toNat v) } e (len := len) (o := o)
    (by omega) (Nat.not_lt.mpr hfit)
  refine ⟨windowOf e o len.toNat v, fun c hc => windowOf_in_window hc, _, exec_ofFields e len o _, ?_, ?_⟩
  · rw [hok]
    rfl
  · rw [hok]
    exact Memory.windowValue_fill_windowOf hwf e o hhigh hv

end Sys2Proof.Proofs

/-! ### The eight requests of legal length -/

namespace Sys2Proof.Machine

/-- The mask `0xFF` keeps every bit of a byte (40_decode R62). -/
theorem shiftIn_eq (acc : Word) (b : Byte) : shiftIn acc b = (acc <<< 8) ||| b.setWidth 32 := by
  have hmask : b &&& 0xFF#8 = b := BitVec.and_allOnes
  rw [shiftIn, hmask]

/-- The first byte of the loop is the whole value, zero-extended (40_decode R62). -/
theorem shiftIn_zero (b : Byte) : shiftIn 0x00000000#32 b = b.setWidth 32 := by
  rw [shiftIn_eq, BitVec.zero_shiftLeft, BitVec.zero_or]

/-- A further byte of the loop is appended below the bytes taken before (40_decode R60, R61). -/
theorem shiftIn_setWidth {w : Nat} (x : BitVec w) (b : Byte) :
    shiftIn (x.setWidth 32) b = (x ++ b).setWidth 32 := by
  rw [shiftIn_eq]
  ext i hi
  by_cases hlow : i < 8
  · simp [BitVec.getElem_setWidth, BitVec.getLsbD_append, hlow]
  · have hzero : b.getLsbD i = false := BitVec.getLsbD_of_ge b i (by omega)
    simp [BitVec.getElem_setWidth, BitVec.getLsbD_append, hlow, hzero]

/-- The loop over two bytes: the first byte taken stands above the second. -/
theorem shiftIn_two_eq_append (a b : Byte) : shiftIn (shiftIn 0x00000000#32 a) b = (a ++ b).setWidth 32 := by
  rw [shiftIn_zero, shiftIn_setWidth]

/-- The loop over three bytes: each byte taken stands above the later ones. -/
theorem shiftIn_three_eq_append (a b c : Byte) :
    shiftIn (shiftIn (shiftIn 0x00000000#32 a) b) c = (a ++ b ++ c).setWidth 32 := by
  rw [shiftIn_two_eq_append, shiftIn_setWidth]

/-- The loop over four bytes fills the result. -/
theorem shiftIn_four_eq_append (a b c d : Byte) :
    shiftIn (shiftIn (shiftIn (shiftIn 0x00000000#32 a) b) c) d = a ++ b ++ c ++ d := by
  rw [shiftIn_three_eq_append, shiftIn_setWidth]
  exact BitVec.setWidth_eq _

end Sys2Proof.Machine

namespace Sys2Proof.Says

open Sys2Proof.Machine

/-- A request of legal length, with the value of its window given: its two answers, each with the whole next state, and
its packed word (40_decode R59, 30_encoding R47). -/
theorem exec_of_legal_length {i : Instr} {s : State} {data : Word} (hlen : 1 ≤ i.len ∧ i.len ≤ 4)
    (hdata : s.buf.windowValue i.endian i.offset i.len = data) :
    (i.offset + i.len ≤ eb s → exec i s = .next (answered s data (List.range' i.offset i.len))) ∧
    (eb s < i.offset + i.len → exec i s = .next (failed s 0b10#2)) ∧
    (i.offset < 2 ^ s.addrW → encode s.addrW i = BitVec.ofNat s.addrW i.offset ++ i.nibble) := by
  refine ⟨fun hfit => ?_, fun hpast => exec_ebound hlen hpast, fun _ => rfl⟩
  rw [exec_ok hlen hfit, hdata]
  rfl

end Sys2Proof.Says

namespace Sys2Proof.Proofs

open Sys2Proof.Machine Sys2Proof.Says

/-- Settles O16: the loop takes one byte, and the byte order has no effect on it. -/
theorem decLe1ReadsOneByte : Obligations.DecLe1ReadsOneByte := by
  intro s o
  obtain ⟨hok, hpast, hword⟩ := exec_of_legal_length (i := .decLe1 o) (s := s) (by simp [Instr.len]) (shiftIn_zero _)
  exact ⟨hok, hpast, hword, exec_decLe1_eq_decBe1 o s⟩

/-- Settles O17: the loop takes `B_1`, then `B_0`. -/
theorem decLe2ReadsTwoBytesFirstLeast : Obligations.DecLe2ReadsTwoBytesFirstLeast :=
  fun _ o => exec_of_legal_length (i := .decLe2 o) (by simp [Instr.len]) (shiftIn_two_eq_append _ _)

/-- Settles O18: the loop takes `B_2`, `B_1`, then `B_0`. -/
theorem decLe3ReadsThreeBytesFirstLeast : Obligations.DecLe3ReadsThreeBytesFirstLeast :=
  fun _ o => exec_of_legal_length (i := .decLe3 o) (by simp [Instr.len]) (shiftIn_three_eq_append _ _ _)

/-- Settles O19: the loop takes `B_3`, `B_2`, `B_1`, then `B_0`. -/
theorem decLe4ReadsFourBytesFirstLeast : Obligations.DecLe4ReadsFourBytesFirstLeast :=
  fun _ o => exec_of_legal_length (i := .decLe4 o) (by simp [Instr.len]) (shiftIn_four_eq_append _ _ _ _)

/-- Settles O20: as `DEC.LE.1`; `o + 1` passes the bound exactly when `o` is not below it. -/
theorem decBe1ReadsOneByte : Obligations.DecBe1ReadsOneByte := by
  intro s o
  obtain ⟨hok, hpast, hword⟩ := exec_of_legal_length (i := .decBe1 o) (s := s) (by simp [Instr.len]) (shiftIn_zero _)
  exact ⟨hok, fun h => hpast (Nat.lt_succ_of_le h), hword, (exec_decLe1_eq_decBe1 o s).symm⟩

/-- Settles O21: the loop takes `B_0`, then `B_1`. -/
theorem decBe2ReadsTwoBytesFirstMost : Obligations.DecBe2ReadsTwoBytesFirstMost :=
  fun _ o => exec_of_legal_length (i := .decBe2 o) (by simp [Instr.len]) (shiftIn_two_eq_append _ _)

/-- Settles O22: the loop takes `B_0`, `B_1`, then `B_2`. -/
theorem decBe3ReadsThreeBytesFirstMost : Obligations.DecBe3ReadsThreeBytesFirstMost :=
  fun _ o => exec_of_legal_length (i := .decBe3 o) (by simp [Instr.len]) (shiftIn_three_eq_append _ _ _)

/-- Settles O23: the loop takes `B_0`, `B_1`, `B_2`, then `B_3`. -/
theorem decBe4ReadsFourBytesFirstMost : Obligations.DecBe4ReadsFourBytesFirstMost :=
  fun _ o => exec_of_legal_length (i := .decBe4 o) (by simp [Instr.len]) (shiftIn_four_eq_append _ _ _ _)

end Sys2Proof.Proofs

/-! ### The idle edge -/

namespace Sys2Proof.Machine

/-- A step whose next cycle presents nothing outside reset is the idle edge after the environment's change; the levels
of the request ports are not looked at (40_decode R73, 30_encoding R54). -/
theorem step_of_idle {s : State} {p : Ports} {ch : Change} {rest : List ClockCycle}
    (hi : s.inputs = .quiet false p ch :: rest) (hp : p.wf s.addrW = true) (hch : ch.wf s.addrW = true) :
    step s = .next (State.applyChange { s with inputs := rest } ch).idleEdge := by
  simp [step, State.nextEdge, hi, ClockCycle.wf, hp, hch, State.clockEdge]

end Sys2Proof.Machine

namespace Sys2Proof.Proofs

open Sys2Proof.Machine

/-- Settles O11: the step is the idle edge, which no request port enters. -/
theorem idleEdgeClearsOnlyValid : Obligations.IdleEdgeClearsOnlyValid := by
  intro s p ch rest hi hp hch
  have hstep := step_of_idle hi hp hch
  refine ⟨⟨_, hstep, rfl, rfl, rfl, rfl, rfl⟩, fun q hq => ?_⟩
  rw [hstep, step_of_idle (s := { s with inputs := .quiet false q ch :: rest }) rfl hq hch]

end Sys2Proof.Proofs
end

section
/-! The statements of 60_exceptions: the two errors (R78, R79, R81), the reserved status (R86), and the step with no
listed cycle (R88). -/

/-! ### The statuses a request writes -/

namespace Sys2Proof.Machine

/-- A request answers EBOUND exactly when its length is legal and its window passes the effective bound
(60_exceptions R79, R81). -/
theorem exec_respStatus_ebound_iff {i : Instr} {s t : State} (h : exec i s = .next t) :
    t.respStatus = ErrorCause.ebound.code ↔ (1 ≤ i.len ∧ i.len ≤ 4) ∧ s.effectiveBound < i.offset + i.len := by
  obtain ⟨hlen, rfl⟩ | ⟨hlen, hpast, rfl⟩ | ⟨-, hfit, rfl⟩ := exec_cases h
  · exact iff_of_false (by simp [ErrorCause.code]) fun ⟨hlegal, _⟩ => by omega
  · exact iff_of_true rfl ⟨hlen, hpast⟩
  · exact iff_of_false (ErrorCause.code_ne_ok .ebound).symm fun ⟨_, hpast⟩ => by omega

/-- A request writes OK or the code of an error, never the reserved status (60_exceptions R86). -/
theorem exec_respStatus_ne_reserved {i : Instr} {s t : State} (h : exec i s = .next t) :
    t.respStatus ≠ statusReserved := by
  obtain ⟨-, rfl⟩ | ⟨-, -, rfl⟩ | ⟨-, -, rfl⟩ := exec_cases h
  · exact ErrorCause.code_ne_reserved .elen
  · exact ErrorCause.code_ne_reserved .ebound
  · exact statusOk_ne_reserved

/-- A step with no listed cycle is an idle edge (log entry 2). -/
theorem step_of_no_inputs {s : State} (h : s.inputs = []) : step s = .next s.idleEdge := by
  simp only [step, State.nextEdge, h]

end Sys2Proof.Machine

/-! ### The statements -/

namespace Sys2Proof.Proofs

open Sys2Proof.Machine

/-- Settles O24: the four illegal lengths lie outside 1 to 4, where a request answers ELEN; EBOUND is the answer of a
legal length only. -/
theorem illegalLengthsAnswerElen : Obligations.IllegalLengthsAnswerElen := by
  refine ⟨fun s e o => ⟨?len0, ?len5, ?len6, ?len7⟩, fun i s t h hebound => ?legal,
    Document.answer_raise State.reset .elen 0x00000000#32⟩
  case legal =>
    obtain ⟨hlegal, -⟩ := (exec_respStatus_ebound_iff h).mp hebound
    exact hlegal
  all_goals exact exec_elen s (by simp [Instr.len])

/-- Settles O25: the bound check comes before the loop, so that a window past the bound is not read at all. -/
theorem windowPastTheBoundAnswersEbound : Obligations.WindowPastTheBoundAnswersEbound :=
  ⟨fun _ _ hlow hhigh hpast => exec_ebound ⟨hlow, hhigh⟩ hpast,
    Document.answer_raise State.reset .ebound 0x00000000#32⟩

/-- Settles O38: a request writes one of three other codes and a reset edge writes OK; an idle edge, listed or not,
keeps the status. -/
theorem theReservedStatusIsNeverWritten : Obligations.TheReservedStatusIsNeverWritten := by
  refine ⟨fun i s t h => exec_respStatus_ne_reserved h, fun s t h hreserved => ?_⟩
  obtain ⟨hi, rfl⟩ | ⟨p, rest, -, -, rfl⟩ | ⟨p, rest, -, -, hexec⟩ | ⟨p, ch, rest, -, -, -, rfl⟩ |
    ⟨p, ch, rest, hi, -, -, rfl⟩ := step_cases h
  · exact ⟨hreserved, by simp [hi]⟩
  · exact absurd hreserved statusOk_ne_reserved
  · exact absurd hreserved (exec_respStatus_ne_reserved hexec)
  · exact absurd hreserved statusOk_ne_reserved
  · exact ⟨hreserved, by simp [hi]⟩

/-- Settles O12: the step is the idle edge, which clears `RESP.VALID` and the set of read addresses and nothing else. -/
theorem anEmptyListOfCyclesIsIdle : Obligations.AnEmptyListOfCyclesIsIdle :=
  fun _ => step_of_no_inputs

end Sys2Proof.Proofs
end

section
/-! The statements of 70_reset_and_hazards: the reset edge (R93, R94), the change of the buffer and the bound (R98), how
long a response stands (R100, R102), and that every cycle is taken (R99, R101). -/

/-! ### One edge after another -/

namespace Sys2Proof.Machine

/-- A step whose next cycle can be driven is the edge of that cycle. -/
theorem step_of_drivable {s : State} {c : ClockCycle} {rest : List ClockCycle} (hi : s.inputs = c :: rest)
    (hc : c.wf s.addrW = true) : step s = State.clockEdge { s with inputs := rest } c := by
  simp only [step, State.nextEdge, hi, hc, if_true]

/-- No step changes the parameter (log entry 3). -/
theorem step_addrW {s t : State} (h : step s = .next t) : t.addrW = s.addrW := by
  obtain ⟨-, rfl⟩ | ⟨p, rest, -, -, rfl⟩ | ⟨p, rest, -, -, hexec⟩ | ⟨p, ch, rest, -, -, -, rfl⟩ |
    ⟨p, ch, rest, -, -, -, rfl⟩ := step_cases h
  case inr.inr.inl =>
    obtain ⟨-, -, haddrW, -⟩ := exec_keeps_inputs hexec
    exact haddrW
  all_goals rfl

/-- A step at an edge with `rst = 1` is the reset edge of a state with that cycle taken off the list, whatever the cycle
presents (70_reset_and_hazards R93). -/
theorem step_of_rst {s : State} {c : ClockCycle} {rest : List ClockCycle} (hi : s.inputs = c :: rest)
    (hrst : c.rst = true) (hc : c.wf s.addrW = true) :
    ∃ u : State, step s = .next u.resetEdge ∧ u.inputs = rest := by
  rw [step_of_drivable hi hc, clockEdge_rst _ hrst]
  refine ⟨_, rfl, ?_⟩
  cases c <;> rfl

/-- A step that accepts a request answers it, and leaves the cycles after it, the buffer, the bound and the parameter
as they were (70_reset_and_hazards R101, 20_memory R38). -/
theorem step_of_request_keeps {s : State} {p : Ports} {rest : List ClockCycle}
    (hi : s.inputs = .request false p :: rest) (hp : p.wf s.addrW = true) :
    ∃ t, step s = .next t ∧ t.respValid = true ∧ t.inputs = rest ∧ t.buf = s.buf ∧ t.bound = s.bound ∧
      t.addrW = s.addrW :=
  ⟨_, step_of_request hi hp, by simp⟩

/-- A request in the next cycle is answered as from any state with the same buffer, bound and parameter
(70_reset_and_hazards R98). -/
theorem step_of_request_sameResponse {t s : State} {q : Ports} {rest : List ClockCycle}
    (hi : t.inputs = .request false q :: rest) (hq : q.wf s.addrW = true)
    (hbuf : t.buf = s.buf) (hbound : t.bound = s.bound) (haddrW : t.addrW = s.addrW) :
    ∃ u v, step t = .next u ∧ exec (decode (q.pack s.addrW)) s = .next v ∧ SameResponse u v := by
  refine ⟨_, _, step_of_request hi (haddrW ▸ hq), by rw [decode_pack hq, exec_ofFields], ?_⟩
  exact acceptRequest_sameResponse _ (by simp only [State.effectiveBound, hbound, haddrW]) fun _ _ => by simp only [hbuf]

/-! ### Filling the buffer -/

/-- Cells written one list after the other. -/
theorem Memory.fill_append (m : Memory) (cells cells' : List Host.Cell) :
    m.fill (cells ++ cells') = (m.fill cells).fill cells' := List.foldl_append

/-- The first cell is written, then the others. -/
theorem Memory.fill_cons (m : Memory) (c : Host.Cell) (cells : List Host.Cell) :
    m.fill (c :: cells) = (m.write c.1 c.2).fill cells := rfl

/-- A byte that is not filled in reads as before. -/
theorem Memory.read_fill_other {m : Memory} {a : Nat} {cells : List Host.Cell} (h : ∀ c ∈ cells, c.1 ≠ a) :
    (m.fill cells).read a = m.read a := by
  induction cells generalizing m with
  | nil => rfl
  | cons c cells ih =>
    obtain ⟨hc, hcells⟩ := List.forall_mem_cons.mp h
    rw [Memory.fill_cons, ih hcells, Memory.read_write_other _ hc.symm]

/-- A byte reads as last written. -/
theorem Memory.read_fill_last {m : Memory} (h : m.wf) {a : Nat} (v : Byte) (before : List Host.Cell)
    {after : List Host.Cell} (hafter : ∀ c ∈ after, c.1 ≠ a) : (m.fill (before ++ (a, v) :: after)).read a = v := by
  rw [Memory.fill_append, Memory.fill_cons, Memory.read_fill_other hafter,
    Memory.read_write_same (Memory.wf_fill h before)]

end Sys2Proof.Machine

/-! ### The statements -/

namespace Sys2Proof.Proofs

open Sys2Proof.Machine

/-- Settles O13: a step in reset is the reset edge, into which a presented request does not enter; outside reset a set
sticky flag stays set. -/
theorem resetEdgeWritesTheResetValues : Obligations.ResetEdgeWritesTheResetValues := by
  refine ⟨fun s c rest hi hrst hc => ?values, fun s p q rest hi hp hq => ?dropped, fun s t h hset hclear => ?only⟩
  case values =>
    obtain ⟨u, hstep, hrest⟩ := step_of_rst hi hrst hc
    exact ⟨_, hstep, rfl, rfl, rfl, rfl, rfl, hrest⟩
  case dropped =>
    have hquiet : (ClockCycle.quiet true q ⟨[], none⟩).wf s.addrW = true := by simp [ClockCycle.wf, Change.wf, hq]
    rw [step_of_drivable hi hp, step_of_drivable (s := { s with inputs := _ :: rest }) rfl hquiet]
    rfl
  case only =>
    by_contra hno
    have hrst : ∀ c rest, s.inputs = c :: rest → c.rst = false := fun c rest hi =>
      Bool.eq_false_of_not_eq_true fun hc => hno ⟨c, rest, hi, hc⟩
    have hkept : t.stickyErr = true := (step_stickyErr h hrst).mpr (.inl hset)
    exact absurd hkept (by simp [hclear])

/-- Settles O42: a drivable cycle never stops the model, and every step takes its cycle off the list and keeps the
parameter. -/
theorem everyDrivableCycleIsTaken : Obligations.EveryDrivableCycleIsTaken := by
  intro s hwf
  obtain ⟨t, hstep⟩ := step_goes_on hwf
  exact ⟨t, hstep, step_inputs hstep, step_addrW hstep⟩

/-- Settles O44: a request leaves the cycle after it and `ADDR_W` as they were; the idle edge then keeps data, status and
flag, and a second request is answered from the buffer and the bound, which the first left alone. -/
theorem aResponseStandsUntilTheNextEdge : Obligations.AResponseStandsUntilTheNextEdge := by
  refine ⟨fun s p q ch rest hi hp hq hch => ?idle, fun s p q rest hi hp hq => ?request⟩
  case idle =>
    obtain ⟨t, hfirst, hvalid, hinputs, -, -, haddrW⟩ := step_of_request_keeps hi hp
    exact ⟨t, _, hfirst, step_of_idle hinputs (haddrW ▸ hq) (haddrW ▸ hch), hvalid, rfl, rfl, rfl, rfl⟩
  case request =>
    obtain ⟨t, hfirst, -, hinputs, hbuf, hbound, haddrW⟩ := step_of_request_keeps hi hp
    obtain ⟨u, v, hsecond, hexec, hvalid, hdata, hstatus, -⟩ :=
      step_of_request_sameResponse (s := { s with inputs := rest }) hinputs hq hbuf hbound haddrW
    exact ⟨t, u, v, hfirst, hsecond, hexec, hvalid.trans (exec_respValid hexec), hdata, hstatus⟩

/-- Settles O45: the edge of a cycle without a request, in reset or outside it, leaves the changed buffer and bound, which
with `ADDR_W` are all the next request's response depends on; a fill is its writes one by one. -/
theorem aLaterRequestSeesTheChangedBuffer : Obligations.ALaterRequestSeesTheChangedBuffer := by
  refine ⟨fun s r p q ch rest hi hp hch hq => ?response, fun m a v before after hwf hafter =>
    Memory.read_fill_last hwf v before hafter, fun m a cells hcells => Memory.read_fill_other hcells⟩
  case response =>
    have hquiet : (ClockCycle.quiet r p ch).wf s.addrW = true := by simp [ClockCycle.wf, hp, hch]
    obtain ⟨t, hfirst⟩ : ∃ t, step s = .next t := step_of_drivable hi hquiet ▸ clockEdge_goes_on _ _
    obtain ⟨hbuf, hbound⟩ := step_buf_bound_of_quiet hfirst hi
    have haddrW := step_addrW hfirst
    have hinputs : t.inputs = .request false q :: rest := by rw [step_inputs hfirst, hi, List.tail_cons]
    obtain ⟨u, v, hsecond, hexec, hresponse⟩ := step_of_request_sameResponse
      (s := { s with inputs := rest, buf := s.buf.fill ch.fill, bound := ch.bound.getD s.bound })
      hinputs hq hbuf hbound haddrW
    exact ⟨t, u, v, hfirst, hsecond, hexec, hresponse⟩

end Sys2Proof.Proofs
end
